-- ==== Sys2Proof/Word.lean ====
section
/-! DEFINITION. The word types of the SynnaxCrab/CHIP-9 core: bytes, 16-bit words, the 12-bit and 4-bit
fields of an instruction word, and the two index types (registers and keys). -/

namespace Sys2Proof

/-- One byte of memory, one general register, one timer (R22, R29, R30, R33). -/
abbrev Byte := BitVec 8

/-- The width of I, PC, a call-stack entry and an instruction word (R25, R26, R27, R91). -/
abbrev Word := BitVec 16

/-- The address field nnn of an instruction word, `w[11:0]` (R92). -/
abbrev Addr := BitVec 12

/-- A 4-bit field of an instruction word: the family, a sub-opcode, a sprite height (R92). -/
abbrev Nibble := BitVec 4

/-- A register index 0x0 to 0xF (R22, R24: an index is a 4-bit field). -/
abbrev Reg := Fin 16

/-- A key number 0x0 to 0xF (R32). -/
abbrev Key := Fin 16

/-- VF, the register that doubles as the flag register (R23). -/
abbrev VF : Reg := 15

end Sys2Proof
end

