-- ==== Sys2Proof/Config.lean ====
section
/-! DEFINITION. The fixed sizes of the core, the TYPE of its named parameters (rule R6), and the free values:
constants without a body, of which no proof can know a value. The parameters' default VALUES stand in
Sys2Proof/Machine/Params.lean. -/

namespace Sys2Proof

/-! ## Fixed values (R6, kind "fixed") -/

/-- MEM_SIZE: addresses 0x000 to 0xFFF (R61). -/
abbrev memSize : Nat := 4096

/-- PROG_BASE: program start and reset PC; below it lies the reserved / font region (R62). -/
abbrev progBase : Nat := 0x200

/-- STACK_DEPTH (R27). -/
abbrev stackDepth : Nat := 16

/-- DISP_W (R31). -/
abbrev dispWidth : Nat := 64

/-- DISP_H (R31). -/
abbrev dispHeight : Nat := 32

/-! ## Named parameters (R6, kind "parameter") -/

/-- FONT_WRITE_POLICY: what a store by an instruction below 0x200 does (R67, D5). -/
inductive FontWritePolicy where
  /-- raises OutOfBounds (the default) -/
  | fault
  /-- the byte is dropped -/
  | ignore
  deriving DecidableEq, Repr

/-- DXY0_POLICY: what a Dxy0 word is (R101, D10). -/
inductive Dxy0Policy where
  /-- raises UnknownOpcode (the default) -/
  | fault
  /-- draws nothing, VF := 0 -/
  | noopVf0
  deriving DecidableEq, Repr

/-- SPRITE_BIT_ORDER: which bit of a sprite byte is the leftmost pixel (R213, D11). -/
inductive SpriteBitOrder where
  /-- bit 7 is leftmost (the default) -/
  | msbLeft
  /-- bit 0 is leftmost -/
  | lsbLeft
  deriving DecidableEq, Repr

/-- KEY_WAIT_SELECT: which pressed key Fx0A takes (R234, D15). -/
inductive KeyWaitSelect where
  /-- the lowest-numbered pressed key (the default) -/
  | lowest
  /-- a draw among the pressed keys -/
  | any
  deriving DecidableEq, Repr

/-- KEY_INDEX_POLICY: Ex9E and ExA1 with Vx above 0x0F (R231, D16). -/
inductive KeyIndexPolicy where
  /-- raises InvalidKey (the default) -/
  | fault
  /-- the key is `V[x] & 0x0F` -/
  | lowNibble
  deriving DecidableEq, Repr

/-- The named parameters of rule R6. "A model takes each named parameter as an argument": the operations and
meanings that depend on one take a `Params`; `exec` and `step` give them the defaults (Machine/Params.lean),
`stepWith` (Machine/Parametric.lean) gives them any. RNG, the last row of R6's table, is no value but a free
input: see `Config.randomByte`. -/
structure Params where
  /-- FONT_BASE -/
  fontBase : Nat
  /-- FONT_TABLE: 16 glyphs of 5 bytes (R63) -/
  fontTable : Vector (Vector Byte 5) 16
  /-- RESERVED_FILL -/
  reservedFill : Byte
  /-- FONT_WRITE_POLICY -/
  fontWritePolicy : FontWritePolicy
  /-- FETCH_ALIGN_CHECK -/
  fetchAlignCheck : Bool
  /-- DXY0_POLICY -/
  dxy0Policy : Dxy0Policy
  /-- SPRITE_BIT_ORDER -/
  spriteBitOrder : SpriteBitOrder
  /-- LDST_INCREMENTS_I -/
  ldstIncrementsI : Bool
  /-- FX1E_SETS_VF -/
  fx1eSetsVf : Bool
  /-- KEY_WAIT_SELECT -/
  keyWaitSelect : KeyWaitSelect
  /-- KEY_INDEX_POLICY -/
  keyIndexPolicy : KeyIndexPolicy
  deriving DecidableEq, Repr

/-- The font lies whole in the reserved region 0x000-0x1FF (R62, R63). -/
abbrev Params.fontFits (p : Params) : Prop := p.fontBase + 80 ≤ progBase

/-! ## Free values -/

/-- RNG: the random byte of draw number k (R129: "any of 0x00-0xFF ... constrained by no law"; log entry 1).
Applied to the counter `State.draws`, which every draw advances. -/
opaque Config.randomByte : Nat → Byte

/-- The draw among the pressed keys under KEY_WAIT_SELECT = any (D15; log entry 9); not used at the defaults. -/
opaque Config.keyDraw : Nat → Nat

/-- What Fx1E writes to VF under FX1E_SETS_VF = true, to which the spec gives no semantics (U1; log entry 8):
a function of I and Vx; not used at the defaults. -/
opaque Config.fx1eFlag : Word → Byte → Byte

end Sys2Proof
end

