-- ==== Sys2Proof/Machine/Params.lean ====
section
/-! DEFINITION. The default value of every named parameter of rule R6, and what memory holds at construction. -/

namespace Sys2Proof.Machine

/-- FONT_TABLE's default: the glyph table of rule R64 (D3: from general knowledge, a parameter; log entry 2). -/
def fontTable : Vector (Vector Byte 5) 16 :=
  #v[
    #v[0xF0, 0x90, 0x90, 0x90, 0xF0],
    #v[0x20, 0x60, 0x20, 0x20, 0x70],
    #v[0xF0, 0x10, 0xF0, 0x80, 0xF0],
    #v[0xF0, 0x10, 0xF0, 0x10, 0xF0],
    #v[0x90, 0x90, 0xF0, 0x10, 0x10],
    #v[0xF0, 0x80, 0xF0, 0x10, 0xF0],
    #v[0xF0, 0x80, 0xF0, 0x90, 0xF0],
    #v[0xF0, 0x10, 0x20, 0x40, 0x40],
    #v[0xF0, 0x90, 0xF0, 0x90, 0xF0],
    #v[0xF0, 0x90, 0xF0, 0x10, 0xF0],
    #v[0xF0, 0x90, 0xF0, 0x90, 0x90],
    #v[0xE0, 0x90, 0xE0, 0x90, 0xE0],
    #v[0xF0, 0x80, 0x80, 0x80, 0xF0],
    #v[0xE0, 0x90, 0x90, 0x90, 0xE0],
    #v[0xF0, 0x80, 0xF0, 0x80, 0xF0],
    #v[0xF0, 0x80, 0xF0, 0x80, 0x80]]

/-- The parameter values of this machine: the defaults of rule R6. -/
def params : Params where
  fontBase := 0x000
  fontTable := fontTable
  reservedFill := 0x00
  fontWritePolicy := .fault
  fetchAlignCheck := true
  dxy0Policy := .fault
  spriteBitOrder := .msbLeft
  ldstIncrementsI := false
  fx1eSetsVf := false
  keyWaitSelect := .lowest
  keyIndexPolicy := .fault

/-- The byte that address `a` holds after `new()` under the parameters `p`: glyph d's 5 bytes at
FONT_BASE + 5*d (R63), RESERVED_FILL in the rest of 0x000-0x1FF (R65), 0x00 from 0x200 on (R33, R291). -/
def constructedByte (p : Params) (a : Nat) : Byte :=
  if h : p.fontBase ≤ a ∧ a < p.fontBase + 80 then
    (p.fontTable[(a - p.fontBase) / 5]'(by omega))[(a - p.fontBase) % 5]'(by omega)
  else if a < progBase then p.reservedFill
  else 0x00

/-- What an address that the memory list does not list reads as: its construction contents (R74: a read
"returns ... the reset value if there is none"). -/
def unlistedByte (a : Nat) : Byte := constructedByte params a

end Sys2Proof.Machine
end

