-- ==== Sys2Proof/Syntax.lean ====
section
/-! DEFINITION. The instruction set: one constructor for each of the 34 rows of spec/opcode_table.json (R104),
with the operand fields the row gives (R92, R94). -/

namespace Sys2Proof

/-- An instruction of the base set. `x`, `y` are register indices, `kk` an immediate byte, `nnn` an address,
`n` a sprite height. 8xy6 and 8xyE do not read their y field (R102), so `shr` and `shl` have none. -/
inductive Instr where
  /-- 00E0 CLS (R216) -/
  | cls
  /-- 00EE RET (R143) -/
  | ret
  /-- 1nnn JP nnn (R144) -/
  | jp (nnn : Addr)
  /-- 2nnn CALL nnn (R145) -/
  | call (nnn : Addr)
  /-- 3xkk SE Vx, kk (R146) -/
  | seImm (x : Reg) (kk : Byte)
  /-- 4xkk SNE Vx, kk (R147) -/
  | sneImm (x : Reg) (kk : Byte)
  /-- 5xy0 SE Vx, Vy (R148) -/
  | seReg (x y : Reg)
  /-- 6xkk LD Vx, kk (R163) -/
  | ldImm (x : Reg) (kk : Byte)
  /-- 7xkk ADD Vx, kk (R164) -/
  | addImm (x : Reg) (kk : Byte)
  /-- 8xy0 LD Vx, Vy (R165) -/
  | ldReg (x y : Reg)
  /-- 8xy1 OR Vx, Vy (R166) -/
  | orReg (x y : Reg)
  /-- 8xy2 AND Vx, Vy (R167) -/
  | andReg (x y : Reg)
  /-- 8xy3 XOR Vx, Vy (R168) -/
  | xorReg (x y : Reg)
  /-- 8xy4 ADD Vx, Vy (R169) -/
  | addReg (x y : Reg)
  /-- 8xy5 SUB Vx, Vy (R170) -/
  | sub (x y : Reg)
  /-- 8xy6 SHR Vx (R171) -/
  | shr (x : Reg)
  /-- 8xy7 SUBN Vx, Vy (R172) -/
  | subn (x y : Reg)
  /-- 8xyE SHL Vx (R173) -/
  | shl (x : Reg)
  /-- 9xy0 SNE Vx, Vy (R149) -/
  | sneReg (x y : Reg)
  /-- Annn LD I, nnn (R192) -/
  | ldI (nnn : Addr)
  /-- Bnnn JP V0, nnn (R150) -/
  | jpV0 (nnn : Addr)
  /-- Cxkk RND Vx, kk (R174) -/
  | rnd (x : Reg) (kk : Byte)
  /-- Dxyn DRW Vx, Vy, n, n ≠ 0 (R217; WellFormed.lean says n ≠ 0) -/
  | drw (x y : Reg) (n : Nibble)
  /-- Ex9E SKP Vx (R232) -/
  | skp (x : Reg)
  /-- ExA1 SKNP Vx (R233) -/
  | sknp (x : Reg)
  /-- Fx07 LD Vx, DT (R235) -/
  | ldVxDt (x : Reg)
  /-- Fx0A LD Vx, K (R234) -/
  | ldVxK (x : Reg)
  /-- Fx15 LD DT, Vx (R236) -/
  | ldDtVx (x : Reg)
  /-- Fx18 LD ST, Vx (R237) -/
  | ldStVx (x : Reg)
  /-- Fx1E ADD I, Vx (R193) -/
  | addIVx (x : Reg)
  /-- Fx29 LD F, Vx (R194) -/
  | ldFVx (x : Reg)
  /-- Fx33 LD B, Vx (R195) -/
  | ldBVx (x : Reg)
  /-- Fx55 LD [I], Vx (R196) -/
  | ldMemVx (x : Reg)
  /-- Fx65 LD Vx, [I] (R197) -/
  | ldVxMem (x : Reg)
  deriving DecidableEq, Repr

end Sys2Proof
end

