-- ==== Sys2Proof/WellFormed.lean ====
section
/-! DEFINITION. The check an instruction passes before it has an encoding. The operand types already hold every
width (R92); the one check left is the sprite height of Dxyn, which is 1 to 15 (R94 "xyn: n ≠ 0", R101). -/

namespace Sys2Proof

/-- Well formed under a given DXY0_POLICY: under `noopVf0` a height of 0 is allowed (D10). -/
def Instr.wellFormedWith (policy : Dxy0Policy) : Instr → Bool
  | .drw _ _ n => decide (n ≠ 0#4) || decide (policy = .noopVf0)
  | _ => true

/-- Well formed at the machine's own parameters: a Dxyn draws 1 to 15 rows (R101, R217). -/
def Instr.wellFormed (i : Instr) : Bool := i.wellFormedWith Machine.params.dxy0Policy

end Sys2Proof
end

