-- ==== Sys2Proof/Machine/State.lean ====
section
/-! DEFINITION. The machine's state as plain data: the tuple of rule R21 and one field of the model's own (the
count of draws); the reasons a step can stop; and the state after construction (`new()`). -/

namespace Sys2Proof.Machine

/-- Memory as (address, byte) pairs in one canonical form (`Memory.wf`, Ops.lean). An address that is not listed
reads as its construction contents (`unlistedByte`, Params.lean). -/
abbrev Memory := List Host.Cell

/-- The display buffer: 32 rows of 64 one-bit pixels, row-major (R31). Pixel (row r, column c) is `disp[r][c]`. -/
abbrev Display := Vector (Vector Bool 64) 32

/-- The core's complete state (R21, R37): nothing else persists between transactions. -/
structure State where
  /-- 4096 bytes (R33) -/
  mem : Memory
  /-- V0 to VF (R22); V[15] is VF (R23) -/
  V : Vector Byte 16
  /-- the index register (R25) -/
  I : Word
  /-- the program counter (R26) -/
  PC : Word
  /-- the call stack, the most recently pushed entry first (R27); its length is the depth (R28) -/
  stack : List Word
  /-- the delay timer (R29) -/
  DT : Byte
  /-- the sound timer (R30) -/
  ST : Byte
  /-- the display buffer (R31) -/
  disp : Display
  /-- the keypad, true = pressed (R32) -/
  keys : Vector Bool 16
  /-- THE MODEL'S OWN, not the spec's: how many draws the run has consumed; draw number k is
  `Config.randomByte k` (log entry 1). No statement rests on its value. -/
  draws : Nat
  deriving DecidableEq, Repr

/-- The error kinds of rule R251, with their payloads. A step that ends in one leaves the state as it was (R127):
`Host.Outcome.fault` carries no state, and `transact` (HostOps.lean) returns the one it was given. Each is the
spec's own error, so each is safe where the spec's rule is the hardware's (92_eei_decisions.md says where not). -/
inductive Fault where
  /-- Code 1. Raised by the fetch (PC below 0x200, above 0xFFE or odd: R122, R123), by DRW and LD_VX_MEM (a read
  above 0xFFF: R66), by LD_B_VX and LD_MEM_VX (a write above 0xFFF or below 0x200: R67) and by load_program
  (R295). Payload: the lowest offending address (R252). Safe for D5 and D6 ("toward unprovable"). -/
  | outOfBounds (addr : Nat)
  /-- Code 2. Raised by CALL when 16 entries are held (R253). Safe. -/
  | stackOverflow
  /-- Code 3. Raised by RET when the stack is empty (R254). Safe. -/
  | stackUnderflow
  /-- Code 4. Raised by decoding a word that is no instruction (R255). Payload: the whole word. Safe. -/
  | unknownOpcode (word : Word)
  /-- Code 5. Raised by the register-file interface for an index outside 0-15 (R24, R256); by no instruction. Safe. -/
  | invalidRegister (index : Nat)
  /-- Code 6. Raised by SKP and SKNP when V[x] is above 0x0F (R257). Payload: V[x]. Safe (D16). -/
  | invalidKey (value : Byte)
  deriving DecidableEq, Repr

/-- The numeric code of an error kind (R251's table; D7). -/
def Fault.code : Fault → Nat
  | .outOfBounds _ => 1
  | .stackOverflow => 2
  | .stackUnderflow => 3
  | .unknownOpcode _ => 4
  | .invalidRegister _ => 5
  | .invalidKey _ => 6

/-- Why the model answers no state and no error of the machine. -/
inductive Refusal where
  /-- Raised by an arm of `exec` whose instruction has no meaning yet. Safe. No arm does so now. -/
  | notModelled (mnemonic : String)
  deriving DecidableEq, Repr

/-- The result of a step. -/
abbrev Result := Host.Outcome State Fault Refusal

/-- A display with every pixel 0. -/
def Display.clear : Display := Vector.replicate 32 (Vector.replicate 64 false)

/-- The state after `new()` (R291): font and fill in place and 0x00 from 0x200 on (no memory cell listed), V0-VF = 0, I = 0,
PC = 0x200, stack empty, DT = ST = 0, display clear, every key released (R32, D18). `draws` = 0 is a DESIGN
CHOICE (log entry 1). -/
def State.reset : State where
  mem := []
  V := Vector.replicate 16 0#8
  I := 0x0000#16
  PC := 0x0200#16
  stack := []
  DT := 0x00#8
  ST := 0x00#8
  disp := Display.clear
  keys := Vector.replicate 16 false
  draws := 0

end Sys2Proof.Machine
end

