-- ==== Sys2Proof/Machine/Ops.lean ====
section
/-! DEFINITION. The named operations over memory, registers, the call stack, the keypad and the display, reporting
an error, and the fetch. Every access of an instruction goes through these. -/

namespace Sys2Proof.Machine

/-! ## Masking (R36) -/

/-- `u8(v)`: the value stored in 8 bits, `v mod 256` (00_scope.md §4, R36, R161). -/
def u8 (v : Int) : Byte := BitVec.ofInt 8 v

/-- `u16(v)`: the value stored in 16 bits, `v mod 65536` (R36). -/
def u16 (v : Int) : Word := BitVec.ofInt 16 v

/-! ## Reporting an error (R127, R259, R260)

The core has no trap vector, saved PC, cause register or mode (R259), and no return from a trap (R260): an error is
the result of the step and leaves the state as it was, so there is nothing to save and nothing to return to. -/

/-- `raise E(info)`: the step ends with the error and commits nothing (R127). -/
def raise (e : Fault) : Result := .fault e

/-! ## Memory -/

/-- The listed byte at an address, if one is listed. -/
def Memory.listed : Memory → Nat → Option Byte
  | [], _ => none
  | (c, b) :: rest, a => if c = a then some b else Memory.listed rest a

/-- The byte at an address: the listed one, else the construction contents. -/
def Memory.read (m : Memory) (a : Nat) : Byte := (m.listed a).getD (unlistedByte a)

/-- Put a byte into the list in order, dropping the entry when the byte is what an unlisted address reads as. -/
def Memory.insert : Memory → Nat → Byte → Memory
  | [], a, b => if b = unlistedByte a then [] else [(a, b)]
  | (c, x) :: rest, a, b =>
    if a < c then (if b = unlistedByte a then (c, x) :: rest else (a, b) :: (c, x) :: rest)
    else if a = c then (if b = unlistedByte a then rest else (a, b) :: rest)
    else (c, x) :: Memory.insert rest a b

/-- Store one byte. No byte exists outside 0x000-0xFFF (R61); every caller checks the address first. -/
def Memory.write (m : Memory) (a : Nat) (b : Byte) : Memory :=
  if a < memSize then m.insert a b else m

/-- Store a run of bytes at rising addresses. -/
def Memory.writeBytes (m : Memory) (a : Nat) : List Byte → Memory
  | [] => m
  | b :: bs => (m.write a b).writeBytes (a + 1) bs

/-- Read a run of `n` bytes at rising addresses. -/
def Memory.readBytes (m : Memory) (a n : Nat) : List Byte := (List.range n).map fun k => m.read (a + k)

/-- The canonical form, from address `lo` on: addresses strictly rise and exist, and no entry equals what its
address reads as unlisted. -/
def Memory.wfFrom (lo : Nat) : Memory → Bool
  | [] => true
  | (a, b) :: rest =>
    decide (lo ≤ a) && decide (a < memSize) && decide (b ≠ unlistedByte a) && Memory.wfFrom (a + 1) rest

/-- The canonical form of memory. -/
def Memory.wf (m : Memory) : Bool := Memory.wfFrom 0 m

/-! ## The memory controller (R66, R67) -/

/-- The check of `MemRead(addr, 1)` (R66). -/
def readFault (a : Nat) : Option Fault := if a > 0xFFF then some (.outOfBounds a) else none

/-- The check of `MemWrite(addr, 1, v)` (R67) under a FONT_WRITE_POLICY. -/
def writeFault (policy : FontWritePolicy) (a : Nat) : Option Fault :=
  if a > 0xFFF then some (.outOfBounds a)
  else if a < progBase ∧ policy = .fault then some (.outOfBounds a)
  else none

/-- The first error of a check over `n` addresses from `base`, in increasing order: the lowest offending address
is reported (R191, R258). Addresses do not wrap (R69). -/
def firstFault (check : Nat → Option Fault) (base n : Nat) : Option Fault :=
  (List.range n).findSome? fun k => check (base + k)

/-- The stores of one instruction once every check has passed. Under `ignore` a byte for the reserved region is
dropped (D5); under `fault` none gets here. -/
def Memory.storeBytes (policy : FontWritePolicy) (m : Memory) (a : Nat) : List Byte → Memory
  | [] => m
  | b :: bs =>
    Memory.storeBytes policy (if a < progBase ∧ policy = .ignore then m else m.write a b) (a + 1) bs

/-! ## Registers -/

/-- `V[x]`. -/
def State.reg (s : State) (x : Reg) : Byte := s.V[x]

/-- `V[x] <- b`. -/
def State.setReg (s : State) (x : Reg) (b : Byte) : State := { s with V := s.V.set x b }

/-- `V[k] <- b` for rising k from `k`, as far as registers go (Fx65: R197). -/
def State.setRegsFrom (s : State) (k : Nat) : List Byte → State
  | [] => s
  | b :: bs => State.setRegsFrom (if h : k < 16 then s.setReg ⟨k, h⟩ b else s) (k + 1) bs

/-- V0 to Vx, in order (R22, R196). -/
def State.regsUpTo (s : State) (x : Reg) : List Byte := s.V.toList.take (x.val + 1)

/-- The register-file interface's read: an index outside 0-15 is an InvalidRegister fault (R24, R256). The
instructions name registers by a 4-bit field and cannot get here with one. -/
def regFileRead (s : State) (index : Nat) : Except Fault Byte :=
  if h : index < 16 then .ok (s.reg ⟨index, h⟩) else .error (.invalidRegister index)

/-- The register-file interface's write (R24, R256). -/
def regFileWrite (s : State) (index : Nat) (b : Byte) : Except Fault State :=
  if h : index < 16 then .ok (s.setReg ⟨index, h⟩ b) else .error (.invalidRegister index)

/-- `I <- w`. -/
def State.setI (s : State) (w : Word) : State := { s with I := w }

/-- Consume one draw (log entry 1). -/
def State.nextDraw (s : State) : State := { s with draws := s.draws + 1 }

/-! ## The PC (R126, R141, R142) -/

/-- `PC <- w`, unchecked (R142). -/
def State.jump (s : State) (w : Word) : State := { s with PC := w }

/-- `PC <- u16(PC + 2)`: the default (R126). -/
def State.advance (s : State) : State := s.jump (u16 (s.PC.toNat + 2))

/-- A skip: `u16(PC + 4)` if the condition holds, else `u16(PC + 2)` (R141). -/
def State.skipIf (s : State) (c : Bool) : State :=
  if c then s.jump (u16 (s.PC.toNat + 4)) else s.advance

/-! ## The call stack (R27, R28) -/

/-- `push(addr)`, or none where the depth would exceed 16 (R28). -/
def push (stack : List Word) (w : Word) : Option (List Word) :=
  if stackDepth ≤ stack.length then none else some (w :: stack)

/-- `pop()`: the most recently pushed entry and the rest, or none on an empty stack. -/
def pop : List Word → Option (Word × List Word)
  | [] => none
  | w :: rest => some (w, rest)

/-! ## The keypad (R32) -/

/-- `keys[k]`. -/
def State.key (s : State) (k : Key) : Bool := s.keys[k]

/-- The pressed keys, lowest first. -/
def State.pressed (s : State) : List Key := (List.finRange 16).filter fun k => s.key k

/-! ## The display buffer and the draw engine (R31, R211 to R215) -/

/-- `disp[row][col]`. -/
def Display.pixel (d : Display) (row : Fin 32) (col : Fin 64) : Bool := d[row][col]

/-- `disp[row][col] <- disp[row][col] ^ 1`. -/
def Display.flip (d : Display) (row : Fin 32) (col : Fin 64) : Display :=
  d.set row (d[row].set col (!d.pixel row col))

/-- `n mod 32`: rows wrap (R212). -/
def wrapRow (n : Nat) : Fin 32 := Fin.ofNat 32 n

/-- `n mod 64`: columns wrap (R212). -/
def wrapCol (n : Nat) : Fin 64 := Fin.ofNat 64 n

/-- Pixel c of a sprite byte, c = 0 leftmost: bit 7 - c under msb_left (R213), bit c under the other order (D11). -/
def spriteBit (order : SpriteBitOrder) (b : Byte) (c : Nat) : Bool :=
  match order with
  | .msbLeft => b.getLsbD (7 - c)
  | .lsbLeft => b.getLsbD c

/-- Pixels `c` to 7 of one sprite row: each 1 bit inverts its pixel, and an on-pixel that it meets is a collision
(R214). `n` pixels are left to draw. -/
def drawRowFrom (order : SpriteBitOrder) (b : Byte) (row : Fin 32) (x0 : Nat) :
    Nat → Nat → Display × Bool → Display × Bool
  | 0, _, acc => acc
  | n + 1, c, (d, hit) =>
    drawRowFrom order b row x0 n (c + 1)
      (if spriteBit order b c then (d.flip row (wrapCol (x0 + c)), hit || d.pixel row (wrapCol (x0 + c)))
       else (d, hit))

/-- Rows `r` on of a sprite (R211, R212). -/
def drawRowsFrom (order : SpriteBitOrder) (x0 y0 : Nat) : List Byte → Nat → Display × Bool → Display × Bool
  | [], _, acc => acc
  | b :: bs, r, acc =>
    drawRowsFrom order x0 y0 bs (r + 1) (drawRowFrom order b (wrapRow (y0 + r)) x0 8 0 acc)

/-- `draw_sprite(x, y, sprite_bytes)`: the new display and the collision flag (R211). -/
def drawSprite (order : SpriteBitOrder) (x y : Nat) (sprite : List Byte) (d : Display) : Display × Bool :=
  drawRowsFrom order (x % dispWidth) (y % dispHeight) sprite 0 (d, false)

/-! ## The fetch (R122 to R125, R128) -/

/-- `Fetch(PC)`: bounds first, then alignment (R124, R128). -/
def fetch (alignCheck : Bool) (s : State) : Except Fault Word :=
  if s.PC.toNat < progBase ∨ s.PC.toNat + 1 > 0xFFF then .error (.outOfBounds s.PC.toNat)
  else if alignCheck ∧ s.PC.getLsbD 0 then .error (.outOfBounds s.PC.toNat)
  else .ok (wordOfBytes (s.mem.read s.PC.toNat) (s.mem.read (s.PC.toNat + 1)))

/-- Fetch and decode: a word that is no instruction raises UnknownOpcode with the whole word (R125, R255). -/
def fetchDecode (p : Params) (s : State) : Except Fault Instr :=
  match fetch p.fetchAlignCheck s with
  | .error e => .error e
  | .ok w =>
    match decodeWith p.dxy0Policy w with
    | .ok i => .ok i
    | .error _ => .error (.unknownOpcode w)

end Sys2Proof.Machine
end

