-- ==== Sys2Proof/Machine/Flags.lean ====
section
/-! DEFINITION. Every flag computation the spec gives: carry, no borrow, the bit shifted out, collision; and how a
flag is written to VF (rules R23, R161, R162). -/

namespace Sys2Proof.Machine

/-- Carry: the sum is above 255 (R169). -/
def carryOut (a b : Byte) : Bool := decide (a.toNat + b.toNat > 255)

/-- No borrow: the minuend is at least the subtrahend (R170, R172). -/
def noBorrow (a b : Byte) : Bool := decide (a.toNat ≥ b.toNat)

/-- The least-significant bit, shifted out by SHR (R171). -/
def lowBit (a : Byte) : Bool := a.getLsbD 0

/-- The most-significant bit, shifted out by SHL (R173). -/
def highBit (a : Byte) : Bool := a.getLsbD 7

/-- A flag as VF holds it: 1 or 0. -/
def flagByte (f : Bool) : Byte := if f then 1#8 else 0#8

/-- `V[0xF] <- flag` (R23). -/
def State.setFlag (s : State) (f : Bool) : State := s.setReg VF (flagByte f)

/-- The end of the five flag-writing ALU rules (R162): the result, then the flag, which wins when x = 0xF, then the PC. -/
def State.resultAndFlag (s : State) (x : Reg) (result : Byte) (flag : Bool) : State :=
  ((s.setReg x result).setFlag flag).advance

end Sys2Proof.Machine
end

