-- ==== Sys2Proof/Machine/Operands.lean ====
section
/-! DEFINITION. The operand forms (rules R93, R69, R63, R211, R231): immediates, the address through I, the glyph
address, the sprite coordinates and the key an instruction names. V[x] and V[y] are `State.reg`. -/

namespace Sys2Proof.Machine

/-- nnn as a 16-bit value: `zext_16(w[11:0])` (R93). -/
def addrOperand (nnn : Addr) : Word := nnn.zeroExtend 16

/-- Bnnn's target: `u16(zext_16(nnn) + V[0])` (R150). -/
def jumpV0Target (s : State) (nnn : Addr) : Word := u16 ((addrOperand nnn).toNat + (s.reg 0).toNat)

/-- The address of the first byte of an access through I; byte k is at `I + k`, an unbounded integer that does not
wrap (R69, R191). -/
def indexAddr (s : State) : Nat := s.I.toNat

/-- The address of the glyph of Vx's low nibble: `FONT_BASE + 5 * (V[x] & 0x0F)` (R63, R194). -/
def glyphAddr (p : Params) (v : Byte) : Word := u16 (p.fontBase + 5 * (v &&& 0x0F#8).toNat)

/-- The three BCD digits of a byte: hundreds, tens, ones (R195). -/
def bcdDigits (v : Byte) : List Byte :=
  [u8 (v.toNat / 100), u8 (v.toNat / 10 % 10), u8 (v.toNat % 10)]

/-- The key Ex9E and ExA1 name (R231), under a KEY_INDEX_POLICY: a value above 0x0F raises InvalidKey, or only its
low nibble counts. -/
def keyOperand (policy : KeyIndexPolicy) (v : Byte) : Except Fault Key :=
  match policy with
  | .fault => if h : v.toNat < 16 then .ok ⟨v.toNat, h⟩ else .error (.invalidKey v)
  | .lowNibble => .ok (Fin.ofNat 16 v.toNat)

/-- The key Fx0A takes from the pressed ones, lowest first (R234), under a KEY_WAIT_SELECT; `draw` is used by `any`
alone (D15). -/
def selectKey (policy : KeyWaitSelect) (draw : Nat) : List Key → Option Key
  | [] => none
  | k :: ks =>
    match policy with
    | .lowest => some k
    | .any => some (((k :: ks)[draw % (k :: ks).length]?).getD k)

end Sys2Proof.Machine
end

