-- ==== Sys2Proof/Machine/Alu.lean ====
section
/-! DEFINITION. The register loads, the arithmetic and logic and the random mask (42_alu.md, rules R161 to R174). -/

namespace Sys2Proof.Machine

/-- `V[x] <- b; PC <- u16(PC + 2)`: the shape of every rule here that writes no flag. -/
def loadReg (x : Reg) (b : Byte) (s : State) : Result := .next (s.setReg x b).advance

/-- LD Vx, kk (R163). -/
def execLdImm (x : Reg) (kk : Byte) (s : State) : Result := loadReg x kk s

/-- ADD Vx, kk: no flag (R164). -/
def execAddImm (x : Reg) (kk : Byte) (s : State) : Result := loadReg x (u8 ((s.reg x).toNat + kk.toNat)) s

/-- LD Vx, Vy (R165). -/
def execLdReg (x y : Reg) (s : State) : Result := loadReg x (s.reg y) s

/-- OR Vx, Vy: no flag (R166). -/
def execOrReg (x y : Reg) (s : State) : Result := loadReg x (s.reg x ||| s.reg y) s

/-- AND Vx, Vy: no flag (R167). -/
def execAndReg (x y : Reg) (s : State) : Result := loadReg x (s.reg x &&& s.reg y) s

/-- XOR Vx, Vy: no flag (R168). -/
def execXorReg (x y : Reg) (s : State) : Result := loadReg x (s.reg x ^^^ s.reg y) s

/-- ADD Vx, Vy: VF := carry (R169). -/
def execAddReg (x y : Reg) (s : State) : Result :=
  .next (s.resultAndFlag x (u8 ((s.reg x).toNat + (s.reg y).toNat)) (carryOut (s.reg x) (s.reg y)))

/-- SUB Vx, Vy: VF := no borrow (R170). -/
def execSub (x y : Reg) (s : State) : Result :=
  .next (s.resultAndFlag x (u8 ((s.reg x).toNat - (s.reg y).toNat)) (noBorrow (s.reg x) (s.reg y)))

/-- SHR Vx: VF := the bit shifted out; the source is Vx (R171). -/
def execShr (x : Reg) (s : State) : Result :=
  .next (s.resultAndFlag x (s.reg x >>> 1) (lowBit (s.reg x)))

/-- SUBN Vx, Vy: Vy - Vx, VF := no borrow (R172). -/
def execSubn (x y : Reg) (s : State) : Result :=
  .next (s.resultAndFlag x (u8 ((s.reg y).toNat - (s.reg x).toNat)) (noBorrow (s.reg y) (s.reg x)))

/-- SHL Vx: VF := the bit shifted out; the source is Vx (R173). -/
def execShl (x : Reg) (s : State) : Result :=
  .next (s.resultAndFlag x (s.reg x <<< 1) (highBit (s.reg x)))

/-- RND Vx, kk for a given random byte r: `V[x] <- r & kk` (R174). The draw is consumed (log entry 1). -/
def rndWith (r : Byte) (x : Reg) (kk : Byte) (s : State) : Result := loadReg x (r &&& kk) s.nextDraw

/-- RND Vx, kk: r is the free random byte of this draw (R129, R174). -/
def execRnd (x : Reg) (kk : Byte) (s : State) : Result := rndWith (Config.randomByte s.draws) x kk s

end Sys2Proof.Machine
end

