-- ==== Sys2Proof/Machine/ControlFlow.lean ====
section
/-! DEFINITION. Jumps, call and return, and the skips on registers and immediates (41_control_flow.md, rules R141
to R150). No target is checked when it is written (R142). -/

namespace Sys2Proof.Machine

/-- RET (R143): StackUnderflow on an empty stack. -/
def execRet (s : State) : Result :=
  match pop s.stack with
  | none => raise .stackUnderflow
  | some (a, rest) => .next ({ s with stack := rest }.jump a)

/-- JP nnn (R144). -/
def execJp (nnn : Addr) (s : State) : Result := .next (s.jump (addrOperand nnn))

/-- CALL nnn (R145): pushes `u16(PC + 2)`; StackOverflow when 16 entries are held. -/
def execCall (nnn : Addr) (s : State) : Result :=
  match push s.stack (u16 (s.PC.toNat + 2)) with
  | none => raise .stackOverflow
  | some stack' => .next ({ s with stack := stack' }.jump (addrOperand nnn))

/-- SE Vx, kk (R146). -/
def execSeImm (x : Reg) (kk : Byte) (s : State) : Result := .next (s.skipIf (s.reg x == kk))

/-- SNE Vx, kk (R147). -/
def execSneImm (x : Reg) (kk : Byte) (s : State) : Result := .next (s.skipIf (s.reg x != kk))

/-- SE Vx, Vy (R148). -/
def execSeReg (x y : Reg) (s : State) : Result := .next (s.skipIf (s.reg x == s.reg y))

/-- SNE Vx, Vy (R149). -/
def execSneReg (x y : Reg) (s : State) : Result := .next (s.skipIf (s.reg x != s.reg y))

/-- JP V0, nnn (R150). -/
def execJpV0 (nnn : Addr) (s : State) : Result := .next (s.jump (jumpV0Target s nnn))

end Sys2Proof.Machine
end

