-- ==== Sys2Proof/Machine/DisplayInstr.lean ====
section
/-! DEFINITION. The two display instructions (44_display.md, rules R211 to R217); the draw engine is in Ops.lean. -/

namespace Sys2Proof.Machine

/-- CLS: every pixel becomes 0 (R215, R216). -/
def execCls (s : State) : Result := .next { s with disp := Display.clear }.advance

/-- DRW Vx, Vy, n under SPRITE_BIT_ORDER (R217): the n sprite bytes are checked first, then drawn at
(V[x], V[y]); VF gets the collision flag. With n = 0, which only DXY0_POLICY = noop_vf0 decodes, nothing is drawn
and VF gets 0 (D10). -/
def drwWith (p : Params) (x y : Reg) (n : Nibble) (s : State) : Result :=
  match firstFault readFault (indexAddr s) n.toNat with
  | some e => raise e
  | none =>
    let drawn := drawSprite p.spriteBitOrder (s.reg x).toNat (s.reg y).toNat
      (s.mem.readBytes (indexAddr s) n.toNat) s.disp
    .next ({ s with disp := drawn.1 }.setFlag drawn.2).advance

/-- DRW Vx, Vy, n (R217). -/
def execDrw (x y : Reg) (n : Nibble) (s : State) : Result := drwWith params x y n s

end Sys2Proof.Machine
end

