-- ==== Sys2Proof/Machine/IndexMemory.lean ====
section
/-! DEFINITION. The instructions that set I and those that move bytes between registers and memory
(43_index_memory.md, rules R191 to R197). A `…With` definition takes the parameters of rule R6. -/

namespace Sys2Proof.Machine

/-- LD I, nnn (R192). -/
def execLdI (nnn : Addr) (s : State) : Result := .next (s.setI (addrOperand nnn)).advance

/-- ADD I, Vx under FX1E_SETS_VF (R193): no flag when it is false; when it is true VF gets a free value (U1). -/
def addIVxWith (p : Params) (x : Reg) (s : State) : Result :=
  .next ((if p.fx1eSetsVf then s.setReg VF (Config.fx1eFlag s.I (s.reg x)) else s).setI
    (u16 (s.I.toNat + (s.reg x).toNat))).advance

/-- ADD I, Vx (R193). -/
def execAddIVx (x : Reg) (s : State) : Result := addIVxWith params x s

/-- LD F, Vx under FONT_BASE (R194). -/
def ldFVxWith (p : Params) (x : Reg) (s : State) : Result := .next (s.setI (glyphAddr p (s.reg x))).advance

/-- LD F, Vx (R194). -/
def execLdFVx (x : Reg) (s : State) : Result := ldFVxWith params x s

/-- I after Fx55 and Fx65: unchanged, or `u16(I + x + 1)` under LDST_INCREMENTS_I (R191). -/
def indexAfter (p : Params) (x : Reg) (s : State) : Word :=
  if p.ldstIncrementsI then u16 (s.I.toNat + x.val + 1) else s.I

/-- Store bytes at I on: every check first, in increasing address order, then every store (R127, R191). -/
def storeAtIndex (p : Params) (bs : List Byte) (i' : Word) (s : State) : Result :=
  match firstFault (writeFault p.fontWritePolicy) (indexAddr s) bs.length with
  | some e => raise e
  | none =>
    .next { s.advance with mem := s.mem.storeBytes p.fontWritePolicy (indexAddr s) bs, I := i' }

/-- LD B, Vx under FONT_WRITE_POLICY (R195). -/
def ldBVxWith (p : Params) (x : Reg) (s : State) : Result := storeAtIndex p (bcdDigits (s.reg x)) s.I s

/-- LD B, Vx: BCD of Vx to mem[I..I+2] (R195). -/
def execLdBVx (x : Reg) (s : State) : Result := ldBVxWith params x s

/-- LD [I], Vx under FONT_WRITE_POLICY and LDST_INCREMENTS_I (R196). -/
def ldMemVxWith (p : Params) (x : Reg) (s : State) : Result :=
  storeAtIndex p (s.regsUpTo x) (indexAfter p x s) s

/-- LD [I], Vx: V0..Vx to mem[I..I+x] (R196). -/
def execLdMemVx (x : Reg) (s : State) : Result := ldMemVxWith params x s

/-- LD Vx, [I] under LDST_INCREMENTS_I (R197). -/
def ldVxMemWith (p : Params) (x : Reg) (s : State) : Result :=
  match firstFault readFault (indexAddr s) (x.val + 1) with
  | some e => raise e
  | none =>
    .next ((s.setRegsFrom 0 (s.mem.readBytes (indexAddr s) (x.val + 1))).setI (indexAfter p x s)).advance

/-- LD Vx, [I]: V0..Vx from mem[I..I+x] (R197). -/
def execLdVxMem (x : Reg) (s : State) : Result := ldVxMemWith params x s

end Sys2Proof.Machine
end

