-- ==== Sys2Proof/Machine/KeypadTimer.lean ====
section
/-! DEFINITION. The instructions that read the keypad and those that read or set the timers (45_keypad_timer.md,
rules R231 to R237). -/

namespace Sys2Proof.Machine

/-- A key skip under KEY_INDEX_POLICY: skip when the key Vx names is in the wanted position (R231 to R233). -/
def keySkipWith (p : Params) (wanted : Bool) (x : Reg) (s : State) : Result :=
  match keyOperand p.keyIndexPolicy (s.reg x) with
  | .error e => raise e
  | .ok k => .next (s.skipIf (s.key k == wanted))

/-- SKP Vx: skip if key Vx is pressed (R232). -/
def execSkp (x : Reg) (s : State) : Result := keySkipWith params true x s

/-- SKNP Vx: skip if key Vx is not pressed (R233). -/
def execSknp (x : Reg) (s : State) : Result := keySkipWith params false x s

/-- Under `any` the draw that chose the key is consumed. -/
def afterKeyDraw (p : Params) (s : State) : State :=
  match p.keyWaitSelect with
  | .lowest => s
  | .any => s.nextDraw

/-- LD Vx, K under KEY_WAIT_SELECT (R234): with no key pressed the step completes with the state unchanged (R132);
else Vx gets the key. The keypad's level is read, not an edge. -/
def ldVxKWith (p : Params) (x : Reg) (s : State) : Result :=
  match selectKey p.keyWaitSelect (Config.keyDraw s.draws) s.pressed with
  | none => .next s
  | some k => .next ((afterKeyDraw p s).setReg x (BitVec.ofNat 8 k.val)).advance

/-- LD Vx, K (R234). -/
def execLdVxK (x : Reg) (s : State) : Result := ldVxKWith params x s

/-- LD Vx, DT (R235). -/
def execLdVxDt (x : Reg) (s : State) : Result := .next (s.setReg x s.DT).advance

/-- LD DT, Vx (R236). -/
def execLdDtVx (x : Reg) (s : State) : Result := .next { s with DT := s.reg x }.advance

/-- LD ST, Vx (R237). -/
def execLdStVx (x : Reg) (s : State) : Result := .next { s with ST := s.reg x }.advance

end Sys2Proof.Machine
end

