-- ==== Sys2Proof/Machine/Step.lean ====
section
/-! DEFINITION. One step (rule R121): fetch, decode, execute, commit, at the machine's own parameters; and how a
word is placed where the next step fetches. -/

namespace Sys2Proof.Machine

/-- `step()` (R121): the fetched word's instruction runs, or the first error in the order of R128 is reported. -/
def step (s : State) : Host.Outcome State Fault Refusal :=
  match fetchDecode params s with
  | .error e => raise e
  | .ok i => exec i s

/-- `s` with the word (numbered as opcode_table.json numbers it) where `step` fetches next: high byte at PC, low
byte at PC + 1 (R70). The fetch needs an even PC in 0x200-0xFFE (R124); where PC is no such address it is set to
PROG_BASE, and nothing else changes. -/
def State.withFetchWord (s : State) (nbits w : Nat) : State :=
  let at' : Word := if progBase ≤ s.PC.toNat ∧ s.PC.toNat + 1 < memSize ∧ s.PC.toNat % 2 = 0 then s.PC else 0x200#16
  { s with
    PC := at'
    mem := s.mem.writeBytes at'.toNat [highByte (tableWord nbits w), lowByte (tableWord nbits w)] }

end Sys2Proof.Machine
end

