-- ==== Sys2Proof/Machine/Parametric.lean ====
section
/-! DEFINITION. The machine with every named parameter of rule R6 and the random byte of rule R130 as arguments:
`stepWith : Params → Byte → State → Result`. At the defaults and the free random byte it is `step`. -/

namespace Sys2Proof.Machine

/-- The meaning of an instruction for given parameters (R6) and a given random byte r, which only RND reads (R129). -/
def execWith (p : Params) (r : Byte) (i : Instr) (s : State) : Result :=
  match i with
  | .cls => execCls s
  | .ret => execRet s
  | .jp nnn => execJp nnn s
  | .call nnn => execCall nnn s
  | .seImm x kk => execSeImm x kk s
  | .sneImm x kk => execSneImm x kk s
  | .seReg x y => execSeReg x y s
  | .ldImm x kk => execLdImm x kk s
  | .addImm x kk => execAddImm x kk s
  | .ldReg x y => execLdReg x y s
  | .orReg x y => execOrReg x y s
  | .andReg x y => execAndReg x y s
  | .xorReg x y => execXorReg x y s
  | .addReg x y => execAddReg x y s
  | .sub x y => execSub x y s
  | .shr x => execShr x s
  | .subn x y => execSubn x y s
  | .shl x => execShl x s
  | .sneReg x y => execSneReg x y s
  | .ldI nnn => execLdI nnn s
  | .jpV0 nnn => execJpV0 nnn s
  | .rnd x kk => rndWith r x kk s
  | .drw x y n => drwWith p x y n s
  | .skp x => keySkipWith p true x s
  | .sknp x => keySkipWith p false x s
  | .ldVxDt x => execLdVxDt x s
  | .ldVxK x => ldVxKWith p x s
  | .ldDtVx x => execLdDtVx x s
  | .ldStVx x => execLdStVx x s
  | .addIVx x => addIVxWith p x s
  | .ldFVx x => ldFVxWith p x s
  | .ldBVx x => ldBVxWith p x s
  | .ldMemVx x => ldMemVxWith p x s
  | .ldVxMem x => ldVxMemWith p x s

/-- One step for given parameters and a given random byte (R121, R130). -/
def stepWith (p : Params) (r : Byte) (s : State) : Result :=
  match fetchDecode p s with
  | .error e => raise e
  | .ok i => execWith p r i s

end Sys2Proof.Machine
end

