-- ==== Sys2Proof/Machine/HostOps.lean ====
section
/-! DEFINITION. The host interface (60_exceptions.md §8, rule R269): every operation as a function on the state, and
all of them as one type of transactions. `step` is Step.lean's. A `…With` definition takes the parameters of rule R6. A key event outside 0-15 is no transaction (R274):
`Key` has no such value. -/

namespace Sys2Proof.Machine

/-! ## Construction, reset and load (R291 to R295) -/

/-- The cells of `n` addresses from `a` on after `new()` under `p`: those whose byte differs from the one that an address
that is not listed reads as (log entry 27). -/
def constructedFrom (p : Params) : Nat → Nat → Memory
  | _, 0 => []
  | a, n + 1 =>
    if constructedByte p a = unlistedByte a then constructedFrom p (a + 1) n
    else (a, constructedByte p a) :: constructedFrom p (a + 1) n

/-- What `new()` puts into memory for given FONT_BASE, FONT_TABLE and RESERVED_FILL (R63, R65, R291). -/
def constructedMemory (p : Params) : Memory := constructedFrom p 0 memSize

/-- `new()` for given parameters (R291, R6). At the defaults it is `State.reset`. -/
def newWith (p : Params) : State := { State.reset with mem := constructedMemory p }

/-- `reset()`: everything as in construction but the keypad (R292, D18). The count of draws, which is the model's
own, goes on. -/
def resetCore (s : State) : State := { State.reset with keys := s.keys, draws := s.draws }

/-- `reset()` for given parameters (R292, R6). -/
def resetWith (p : Params) (s : State) : State := { newWith p with keys := s.keys, draws := s.draws }

/-- `load_program(bytes)` (R294): the length check first (R295), then the reset, then the copy from 0x200 on. -/
def loadProgram (bytes : List Byte) (s : State) : Result :=
  if bytes.length + progBase > memSize then raise (.outOfBounds 0x1000)
  else .next { resetCore s with mem := (resetCore s).mem.writeBytes progBase bytes }

/-- `load_program(bytes)` for given parameters (R294, R6): the reset in it re-seeds the font and the fill of `p`. At the
defaults it is `loadProgram`. -/
def loadProgramWith (p : Params) (bytes : List Byte) (s : State) : Result :=
  if bytes.length + progBase > memSize then raise (.outOfBounds 0x1000)
  else .next { resetWith p s with mem := (resetWith p s).mem.writeBytes progBase bytes }

/-! ## Timers, keypad and reads (R264, R267, R268, R80) -/

/-- One tick of a counter: down by 1 if it is not 0 (R264). -/
def tickDown (t : Byte) : Byte := if t.toNat > 0 then u8 (t.toNat - 1) else t

/-- `tick_timers()` (R264). -/
def tickTimers (s : State) : State := { s with DT := tickDown s.DT, ST := tickDown s.ST }

/-- `key_down(k)` (R267). -/
def keyDown (k : Key) (s : State) : State := { s with keys := s.keys.set k true }

/-- `key_up(k)` (R267). -/
def keyUp (k : Key) (s : State) : State := { s with keys := s.keys.set k false }

/-- `display_snapshot()`: 2048 bits in row-major order (R268). -/
def displaySnapshot (s : State) : List (BitVec 1) :=
  (s.disp.toList.map fun row => row.toList.map BitVec.ofBool).flatten

/-- `memory_view()`: the 4096 bytes in address order (R80). -/
def memoryView (s : State) : List Byte := s.mem.readBytes 0 memSize

/-! ## Transactions (R5, R269) -/

/-- What the host can send to a core (R269). -/
inductive Transaction where
  | new
  | reset
  | loadProgram (bytes : List Byte)
  | step
  | tickTimers
  | keyDown (k : Key)
  | keyUp (k : Key)
  | displaySnapshot
  | memoryView
  deriving DecidableEq, Repr

/-- What the core returns (R269's "core returns" column). -/
inductive Reply where
  /-- nothing, or ok -/
  | ok
  /-- `Err(e)` (R259) -/
  | err (e : Fault)
  /-- the model has no meaning for the instruction; no transaction answers so now -/
  | notAnswered (r : Refusal)
  /-- the 2048 pixels -/
  | pixels (bits : List (BitVec 1))
  /-- the 4096 bytes -/
  | bytes (bs : List Byte)
  deriving DecidableEq, Repr

/-- The transaction's successor state and reply; an error leaves the pre-transaction state (R127, R259). -/
def settle (s : State) : Result → State × Reply
  | .next s' => (s', .ok)
  | .fault e => (s, .err e)
  | .refused r => (s, .notAnswered r)

/-- One atomic transaction (R5, R269). `new` gives a fresh core; the model's count of draws goes on. -/
def transact (t : Transaction) (s : State) : State × Reply :=
  match t with
  | .new => ({ State.reset with draws := s.draws }, .ok)
  | .reset => (resetCore s, .ok)
  | .loadProgram bytes => settle s (loadProgram bytes s)
  | .step => settle s (step s)
  | .tickTimers => (tickTimers s, .ok)
  | .keyDown k => (keyDown k s, .ok)
  | .keyUp k => (keyUp k s, .ok)
  | .displaySnapshot => (s, .pixels (displaySnapshot s))
  | .memoryView => (s, .bytes (memoryView s))

/-- One transaction for given parameters (R6) and, for a step, a given random byte (R130). The transactions that are not
`new`, `reset`, `load_program` or `step` depend on no parameter. -/
def transactWith (p : Params) (r : Byte) (t : Transaction) (s : State) : State × Reply :=
  match t with
  | .new => ({ newWith p with draws := s.draws }, .ok)
  | .reset => (resetWith p s, .ok)
  | .loadProgram bytes => settle s (loadProgramWith p bytes s)
  | .step => settle s (stepWith p r s)
  | .tickTimers => (tickTimers s, .ok)
  | .keyDown k => (keyDown k s, .ok)
  | .keyUp k => (keyUp k s, .ok)
  | .displaySnapshot => (s, .pixels (displaySnapshot s))
  | .memoryView => (s, .bytes (memoryView s))

/-- A sequence of transactions, in the order the host serialises them (R74, R262). -/
def transactAll : List Transaction → State → State
  | [], s => s
  | t :: ts, s => transactAll ts (transact t s).1

end Sys2Proof.Machine
end

