-- ==== Sys2Proof/Safety.lean ====
section
/-! DEFINITION. What the claims are stated in terms of: the state invariant, an address a fetch accepts, and the
states that transactions reach. -/

namespace Sys2Proof.Machine

/-- The invariant of the core: memory is in its canonical form; the reserved region 0x000-0x1FF holds its
construction contents (R62, R65, R293); the stack depth is at most 16 (R27). -/
abbrev State.Inv (s : State) : Prop :=
  s.mem.wf = true ∧ (∀ a < progBase, s.mem.read a = unlistedByte a) ∧ s.stack.length ≤ stackDepth

/-- A PC that a fetch accepts: both bytes in the program region, and even (R122, R123). -/
abbrev Fetchable (pc : Word) : Prop := progBase ≤ pc.toNat ∧ pc.toNat + 1 ≤ 0xFFF ∧ pc.toNat % 2 = 0

/-- The word at PC, high byte first (R70). -/
def State.wordAtPC (s : State) : Word := wordOfBytes (s.mem.read s.PC.toNat) (s.mem.read (s.PC.toNat + 1))

/-- Bit c of row r of a sprite drawn at (x, y) is 1 and lands on this pixel (R212, R213): the pixels a draw inverts. -/
def spriteCovers (order : SpriteBitOrder) (x y : Nat) (sprite : List Byte) (row : Fin 32) (col : Fin 64) : Bool :=
  (List.range sprite.length).any fun r => (List.range 8).any fun c =>
    spriteBit order (sprite.getD r 0) c && wrapRow (y % dispHeight + r) == row && wrapCol (x % dispWidth + c) == col

/-- Memory below 0x200 as `new()` leaves it for given parameters: glyph d at FONT_BASE + 5*d (R63), RESERVED_FILL in the
rest (R65). -/
abbrev HoldsFontAndFill (p : Params) (s : State) : Prop :=
  (∀ (d : Fin 16) (b : Fin 5), s.mem.read (p.fontBase + 5 * d.val + b.val) = p.fontTable[d][b]) ∧
  ∀ a < 0x200, a < p.fontBase ∨ p.fontBase + 80 ≤ a → s.mem.read a = p.reservedFill

/-- Memory from `a₀` on as `new()` leaves it: 0x00 (R33). -/
abbrev ClearFrom (a₀ : Nat) (s : State) : Prop := ∀ a, a₀ ≤ a → s.mem.read a = 0#8

/-! ## Frames: what an instruction leaves unchanged -/

/-- `t.PC` is `u16(PC + 2)` (R126). -/
abbrev PCAdvanced (s t : State) : Prop := t.PC.toNat = (s.PC.toNat + 2) % 65536

/-- `t.PC` is `u16(PC + 4)` if the condition holds, else `u16(PC + 2)` (R141). -/
abbrev PCSkipped (s t : State) (c : Prop) : Prop :=
  (c → t.PC.toNat = (s.PC.toNat + 4) % 65536) ∧ (¬ c → t.PC.toNat = (s.PC.toNat + 2) % 65536)

/-- Every register outside `changed` is unchanged. -/
abbrev KeepsRegs (s t : State) (changed : List Reg) : Prop := ∀ y, y ∉ changed → t.reg y = s.reg y

/-- Every byte of memory is unchanged. -/
abbrev KeepsMemory (s t : State) : Prop := ∀ a, t.mem.read a = s.mem.read a

/-- The call stack, both timers and the keypad are unchanged. -/
abbrev KeepsStackTimersKeys (s t : State) : Prop :=
  t.stack = s.stack ∧ t.DT = s.DT ∧ t.ST = s.ST ∧ t.keys = s.keys

/-- Only the registers in `changed` and the PC may differ. -/
abbrev OnlyRegs (s t : State) (changed : List Reg) : Prop :=
  KeepsRegs s t changed ∧ KeepsMemory s t ∧ t.I = s.I ∧ t.disp = s.disp ∧ KeepsStackTimersKeys s t

/-- The registers an instruction may write: Vx, VF as the flag, V0 to Vx (R22, R23). -/
def writtenRegs : Instr → List Reg
  | .ldImm x _ | .addImm x _ | .ldReg x _ | .orReg x _ | .andReg x _ | .xorReg x _ | .rnd x _ | .ldVxDt x
  | .ldVxK x => [x]
  | .addReg x _ | .sub x _ | .shr x | .subn x _ | .shl x => [x, VF]
  | .drw _ _ _ => [VF]
  | .ldVxMem x => (List.finRange 16).filter fun y => decide (y ≤ x)
  | _ => []

/-- The states a core reaches from `new()` by transactions (R5, R269). -/
inductive Reachable : State → Prop where
  | new : Reachable State.reset
  | after (t : Transaction) {s : State} : Reachable s → Reachable (transact t s).1

end Sys2Proof.Machine
end

