-- ==== Sys2Proof/Certificates/Slice0/Obligations.lean ====
section
/-! DEFINITION. The statements for the provers. Each docstring names the rule it formalises. A statement that rests
on a decision of the spec's own (92_eei_decisions.md D1 to D31) or on an inference the spec marks as derived says so. -/

open Sys2Proof Sys2Proof.Machine

/-! ## Encoding -/

/-- R92: the fields of the word are the bits the table names. -/
def Obligations.FieldsAreTheBitsOfTheWord : Prop :=
  ∀ w : Word,
    fieldFamily w = w.toNat / 4096 ∧ (fieldX w).val = w.toNat / 256 % 16 ∧ (fieldY w).val = w.toNat / 16 % 16 ∧
    (fieldN w).toNat = w.toNat % 16 ∧ (fieldKK w).toNat = w.toNat % 256 ∧ (fieldNNN w).toNat = w.toNat % 4096

/-- Decoding the encoded word, or the bytes, of a well-formed instruction gives it back, with every operand at
every value (formats of R94, patterns of 30_encoding.md §4). -/
def Obligations.DecodeEncodeRoundTrip : Prop :=
  ∀ i : Instr, i.wellFormed = true →
    decode (encode i) = .ok i ∧ ∀ rest, decodeBytes (encodeBytes i ++ rest) = .ok (i, rest)

/-- 8xy6 and 8xyE decode to the same instruction for any y, and no other word has a don't-care bit (R102): the word a
decoded instruction encodes to is the word it was decoded from. That a shift encodes to the word with y cleared is the
encoder's choice (log entry 21), and that a decoded instruction is well-formed, a DRW of height 0 being none, is decision
D10 (log entry 12). -/
def Obligations.OnlyShiftsHaveDontCareBits : Prop :=
  (∀ x y : Reg, decode (encXYN 0x8#4 x y 0x6#4) = .ok (.shr x) ∧ decode (encXYN 0x8#4 x y 0xE#4) = .ok (.shl x)) ∧
  ∀ (w : Word) (i : Instr), decode w = .ok i →
    i.wellFormed = true ∧
    ((∀ x, i ≠ .shr x) → (∀ x, i ≠ .shl x) → encode i = w) ∧
    (∀ x, i = .shr x ∨ i = .shl x → encode i = w &&& 0xFF0F#16)

/-- R98, R99, R100: in families 8, E and F every word with a listed sub-opcode decodes to the instruction its pattern
names (R95), with the fields of the word as operands; every other word raises UnknownOpcode with the word. -/
def Obligations.FamiliesEightEFDecodeTheListedSubopcodes : Prop :=
  ∀ w : Word,
    (w &&& 0xF00F#16 = 0x8000#16 → decode w = .ok (.ldReg (fieldX w) (fieldY w))) ∧
    (w &&& 0xF00F#16 = 0x8001#16 → decode w = .ok (.orReg (fieldX w) (fieldY w))) ∧
    (w &&& 0xF00F#16 = 0x8002#16 → decode w = .ok (.andReg (fieldX w) (fieldY w))) ∧
    (w &&& 0xF00F#16 = 0x8003#16 → decode w = .ok (.xorReg (fieldX w) (fieldY w))) ∧
    (w &&& 0xF00F#16 = 0x8004#16 → decode w = .ok (.addReg (fieldX w) (fieldY w))) ∧
    (w &&& 0xF00F#16 = 0x8005#16 → decode w = .ok (.sub (fieldX w) (fieldY w))) ∧
    (w &&& 0xF00F#16 = 0x8006#16 → decode w = .ok (.shr (fieldX w))) ∧
    (w &&& 0xF00F#16 = 0x8007#16 → decode w = .ok (.subn (fieldX w) (fieldY w))) ∧
    (w &&& 0xF00F#16 = 0x800E#16 → decode w = .ok (.shl (fieldX w))) ∧
    (fieldFamily w = 0x8 → (fieldN w).toNat ∈ [0x8, 0x9, 0xA, 0xB, 0xC, 0xD, 0xF] →
      decode w = .error (.unknownOpcode w)) ∧
    (w &&& 0xF0FF#16 = 0xE09E#16 → decode w = .ok (.skp (fieldX w))) ∧
    (w &&& 0xF0FF#16 = 0xE0A1#16 → decode w = .ok (.sknp (fieldX w))) ∧
    (fieldFamily w = 0xE → (fieldKK w).toNat ∉ [0x9E, 0xA1] → decode w = .error (.unknownOpcode w)) ∧
    (w &&& 0xF0FF#16 = 0xF007#16 → decode w = .ok (.ldVxDt (fieldX w))) ∧
    (w &&& 0xF0FF#16 = 0xF00A#16 → decode w = .ok (.ldVxK (fieldX w))) ∧
    (w &&& 0xF0FF#16 = 0xF015#16 → decode w = .ok (.ldDtVx (fieldX w))) ∧
    (w &&& 0xF0FF#16 = 0xF018#16 → decode w = .ok (.ldStVx (fieldX w))) ∧
    (w &&& 0xF0FF#16 = 0xF01E#16 → decode w = .ok (.addIVx (fieldX w))) ∧
    (w &&& 0xF0FF#16 = 0xF029#16 → decode w = .ok (.ldFVx (fieldX w))) ∧
    (w &&& 0xF0FF#16 = 0xF033#16 → decode w = .ok (.ldBVx (fieldX w))) ∧
    (w &&& 0xF0FF#16 = 0xF055#16 → decode w = .ok (.ldMemVx (fieldX w))) ∧
    (w &&& 0xF0FF#16 = 0xF065#16 → decode w = .ok (.ldVxMem (fieldX w))) ∧
    (fieldFamily w = 0xF → (fieldKK w).toNat ∉ [0x07, 0x0A, 0x15, 0x18, 0x1E, 0x29, 0x33, 0x55, 0x65] →
      decode w = .error (.unknownOpcode w))

/-- The other families, each word to the instruction its pattern names with the fields of the word as operands, and so
the rest of the illegal space. Families 0, 5, 9 and D rest on the spec's own decisions D8, D9 and D10 (log entries 10, 11,
12): 00E0 and 00EE alone in family 0, N4 = 0 in 5 and 9, n ≠ 0 in D. Every word of families 1 to 4, 6, 7, A, B and C is an
instruction. -/
def Obligations.OtherFamiliesDecodeTheirPatterns : Prop :=
  ∀ w : Word,
    (fieldFamily w = 0x0 →
      (w = 0x00E0#16 → decode w = .ok .cls) ∧ (w = 0x00EE#16 → decode w = .ok .ret) ∧
      (w ≠ 0x00E0#16 → w ≠ 0x00EE#16 → decode w = .error (.unknownOpcode w))) ∧
    (w &&& 0xF000#16 = 0x1000#16 → decode w = .ok (.jp (fieldNNN w))) ∧
    (w &&& 0xF000#16 = 0x2000#16 → decode w = .ok (.call (fieldNNN w))) ∧
    (w &&& 0xF000#16 = 0x3000#16 → decode w = .ok (.seImm (fieldX w) (fieldKK w))) ∧
    (w &&& 0xF000#16 = 0x4000#16 → decode w = .ok (.sneImm (fieldX w) (fieldKK w))) ∧
    (w &&& 0xF00F#16 = 0x5000#16 → decode w = .ok (.seReg (fieldX w) (fieldY w))) ∧
    (w &&& 0xF000#16 = 0x6000#16 → decode w = .ok (.ldImm (fieldX w) (fieldKK w))) ∧
    (w &&& 0xF000#16 = 0x7000#16 → decode w = .ok (.addImm (fieldX w) (fieldKK w))) ∧
    (w &&& 0xF00F#16 = 0x9000#16 → decode w = .ok (.sneReg (fieldX w) (fieldY w))) ∧
    (w &&& 0xF000#16 = 0xA000#16 → decode w = .ok (.ldI (fieldNNN w))) ∧
    (w &&& 0xF000#16 = 0xB000#16 → decode w = .ok (.jpV0 (fieldNNN w))) ∧
    (w &&& 0xF000#16 = 0xC000#16 → decode w = .ok (.rnd (fieldX w) (fieldKK w))) ∧
    (fieldFamily w = 0x5 ∨ fieldFamily w = 0x9 → fieldN w ≠ 0#4 → decode w = .error (.unknownOpcode w)) ∧
    (fieldFamily w = 0xD →
      (fieldN w = 0#4 → decode w = .error (.unknownOpcode w)) ∧
      (fieldN w ≠ 0#4 → decode w = .ok (.drw (fieldX w) (fieldY w) (fieldN w))))

/-- Eight words written out from the patterns of 30_encoding.md §4 decode to the instructions they stand for. The words 0123
and D010 are refused: the spec's decisions D8 and D10 (log entries 10, 12). -/
def Obligations.SampleWordsDecode : Prop :=
  decode 0x00E0#16 = .ok .cls ∧ decode 0x2210#16 = .ok (.call 0x210#12) ∧
  decode 0x6A42#16 = .ok (.ldImm 0xA 0x42#8) ∧ decode 0x8017#16 = .ok (.subn 0 1) ∧
  decode 0x80F6#16 = .ok (.shr 0) ∧ decode 0xD125#16 = .ok (.drw 1 2 5#4) ∧
  decode 0xE59E#16 = .ok (.skp 5) ∧ decode 0xF365#16 = .ok (.ldVxMem 3) ∧
  decode 0x0123#16 = .error (.unknownOpcode 0x0123#16) ∧ decode 0xD010#16 = .error (.unknownOpcode 0xD010#16)

/-! ## The step -/

/-- When PC is fetchable and the word at PC decodes to i, the step is exec of i at that same state: the fetch changes
nothing and exec itself moves the PC (R121, R124, R133). -/
def Obligations.StepRunsTheDecodedInstruction : Prop :=
  ∀ (s : State) (i : Instr), Fetchable s.PC → decode s.wordAtPC = .ok i → step s = exec i s

/-- R124: the fetch in full, for both values of FETCH_ALIGN_CHECK: bounds, then alignment, then the two bytes,
high byte at PC. -/
def Obligations.FetchChecksThenReadsHighByteFirst : Prop :=
  ∀ (check : Bool) (s : State),
    (s.PC.toNat < 0x200 ∨ s.PC.toNat + 1 > 0xFFF → fetch check s = .error (.outOfBounds s.PC.toNat)) ∧
    (0x200 ≤ s.PC.toNat → s.PC.toNat + 1 ≤ 0xFFF → check = true → s.PC.toNat % 2 = 1 →
      fetch check s = .error (.outOfBounds s.PC.toNat)) ∧
    (0x200 ≤ s.PC.toNat → s.PC.toNat + 1 ≤ 0xFFF → (check = false ∨ s.PC.toNat % 2 = 0) →
      ∃ w, fetch check s = .ok w ∧
        w.toNat = 256 * (s.mem.read s.PC.toNat).toNat + (s.mem.read (s.PC.toNat + 1)).toNat)

/-- R122: outside 0x200-0xFFE the step raises OutOfBounds(PC), whatever memory holds; inside it, at an even PC, the
fetch raises nothing, so the step's outcome is that of the word at PC. -/
def Obligations.StepOutsideTheProgramRegionIsOutOfBounds : Prop :=
  ∀ s : State,
    (¬ (0x200 ≤ s.PC.toNat ∧ s.PC.toNat + 1 ≤ 0xFFF) → step s = .fault (.outOfBounds s.PC.toNat)) ∧
    (Fetchable s.PC →
      (∃ i, decode s.wordAtPC = .ok i ∧ step s = exec i s) ∨ step s = .fault (.unknownOpcode s.wordAtPC))

/-- At an odd PC in bounds the step raises OutOfBounds(PC): the spec's own decision D6 (log entry 6). -/
def Obligations.StepAtAnOddPCIsOutOfBounds : Prop :=
  ∀ s : State, s.PC.toNat % 2 = 1 → step s = .fault (.outOfBounds s.PC.toNat)

/-- R125: a fetched word that decodes to no instruction raises UnknownOpcode with the whole word, and the
transaction leaves the state as it was. -/
def Obligations.UndecodableWordRaisesUnknownOpcode : Prop :=
  ∀ s : State, Fetchable s.PC → (∀ i, decode s.wordAtPC ≠ .ok i) →
    step s = .fault (.unknownOpcode s.wordAtPC) ∧
    transact .step s = (s, .err (.unknownOpcode s.wordAtPC))

/-- `withFetchWord` places a word where the next step fetches: the step runs it. It keeps a fetchable PC, and every
byte but the word's two. -/
def Obligations.PlacedWordIsTheNextInstruction : Prop :=
  ∀ (s : State) (w : Word) (i : Instr), s.mem.wf = true → decode w = .ok i →
    step (s.withFetchWord 16 w.toNat) = exec i (s.withFetchWord 16 w.toNat) ∧
    (Fetchable s.PC → (s.withFetchWord 16 w.toNat).PC = s.PC ∧
      ∀ a, a ≠ s.PC.toNat → a ≠ s.PC.toNat + 1 → (s.withFetchWord 16 w.toNat).mem.read a = s.mem.read a)

/-- Self-modifying code (R76, which the spec derives): a word that LD [I], Vx stores at the next PC is the next word
fetched. -/
def Obligations.StoredWordIsFetchedNext : Prop :=
  ∀ (x : Reg) (s t : State), s.mem.wf = true → 1 ≤ x.val → s.I.toNat = s.PC.toNat + 2 →
    exec (.ldMemVx x) s = .next t → t.PC = s.I ∧ t.wordAtPC = wordOfBytes (s.reg 0) (s.reg 1)

/-! ## Control flow -/

/-- R143: RET on an empty stack raises StackUnderflow; else the most recently pushed entry goes to PC as it is and is
popped, and nothing else changes. -/
def Obligations.RetPopsTheLastReturnAddress : Prop :=
  (∀ w : Word, w = 0x00EE#16 → decode w = .ok .ret) ∧
  (∀ s : State, s.stack = [] → exec .ret s = .fault .stackUnderflow) ∧
  ∀ (s : State) (a : Word) (rest : List Word), s.stack = a :: rest →
    ∃ t, exec .ret s = .next t ∧ t.PC = a ∧ t.stack = rest ∧
      KeepsRegs s t [] ∧ KeepsMemory s t ∧ t.I = s.I ∧ t.disp = s.disp ∧ t.DT = s.DT ∧ t.ST = s.ST ∧ t.keys = s.keys

/-- R144: JP sets PC to nnn, any nnn, and changes nothing else. -/
def Obligations.JpSetsThePC : Prop :=
  (∀ w : Word, w &&& 0xF000#16 = 0x1000#16 → decode w = .ok (.jp (fieldNNN w))) ∧
  ∀ (nnn : Addr) (s : State), ∃ t, exec (.jp nnn) s = .next t ∧ t.PC.toNat = nnn.toNat ∧ OnlyRegs s t []

/-- R145: CALL with 16 entries held (or more, which no reachable state has: ReachableStatesMeetTheInvariant) raises
StackOverflow; with fewer it pushes u16(PC + 2) on top, sets PC to nnn, and changes nothing else. -/
def Obligations.CallPushesTheReturnAddress : Prop :=
  (∀ w : Word, w &&& 0xF000#16 = 0x2000#16 → decode w = .ok (.call (fieldNNN w))) ∧
  (∀ (nnn : Addr) (s : State), 16 ≤ s.stack.length → exec (.call nnn) s = .fault .stackOverflow) ∧
  ∀ (nnn : Addr) (s : State), s.stack.length < 16 →
    ∃ t a, exec (.call nnn) s = .next t ∧ t.PC.toNat = nnn.toNat ∧ t.stack = a :: s.stack ∧
      a.toNat = (s.PC.toNat + 2) % 65536 ∧
      KeepsRegs s t [] ∧ KeepsMemory s t ∧ t.I = s.I ∧ t.disp = s.disp ∧ t.DT = s.DT ∧ t.ST = s.ST ∧ t.keys = s.keys

/-- R146, R147: the skips on an immediate. -/
def Obligations.SkipsOnImmediateCompare : Prop :=
  (∀ w : Word, w &&& 0xF000#16 = 0x3000#16 → decode w = .ok (.seImm (fieldX w) (fieldKK w))) ∧
  (∀ w : Word, w &&& 0xF000#16 = 0x4000#16 → decode w = .ok (.sneImm (fieldX w) (fieldKK w))) ∧
  ∀ (x : Reg) (kk : Byte) (s : State),
    (∃ t, exec (.seImm x kk) s = .next t ∧ PCSkipped s t (s.reg x = kk) ∧ OnlyRegs s t []) ∧
    (∃ t, exec (.sneImm x kk) s = .next t ∧ PCSkipped s t (s.reg x ≠ kk) ∧ OnlyRegs s t [])

/-- R148, R149: the skips on two registers. -/
def Obligations.SkipsOnRegisterCompare : Prop :=
  (∀ w : Word, w &&& 0xF00F#16 = 0x5000#16 → decode w = .ok (.seReg (fieldX w) (fieldY w))) ∧
  (∀ w : Word, w &&& 0xF00F#16 = 0x9000#16 → decode w = .ok (.sneReg (fieldX w) (fieldY w))) ∧
  ∀ (x y : Reg) (s : State),
    (∃ t, exec (.seReg x y) s = .next t ∧ PCSkipped s t (s.reg x = s.reg y) ∧ OnlyRegs s t []) ∧
    (∃ t, exec (.sneReg x y) s = .next t ∧ PCSkipped s t (s.reg x ≠ s.reg y) ∧ OnlyRegs s t [])

/-- JP V0, nnn: PC becomes nnn + V0, always V0, kept at 16 bits (R150; the width is the spec's decision D20, log entry 15). -/
def Obligations.JpV0AddsV0 : Prop :=
  ∀ (nnn : Addr) (s : State),
    ∃ t, exec (.jpV0 nnn) s = .next t ∧ t.PC.toNat = nnn.toNat + (s.reg 0).toNat ∧ OnlyRegs s t []

/-- A call, then a return, comes back to the word after the call with the stack as it was (§8 S5: "return address is
call-site+2"), whatever the subroutine's first word address. -/
def Obligations.CallThenReturnComesBack : Prop :=
  ∀ (nnn : Addr) (s t u : State), exec (.call nnn) s = .next t → exec .ret t = .next u →
    u.PC.toNat = (s.PC.toNat + 2) % 65536 ∧ u.stack = s.stack ∧ OnlyRegs s u []

/-! ## Loads, arithmetic, logic, random -/

/-- R163, R164, R165: the immediate load, the immediate add without flag, the register copy. -/
def Obligations.LoadsAndImmediateAdd : Prop :=
  (∀ w : Word, w &&& 0xF000#16 = 0x6000#16 → decode w = .ok (.ldImm (fieldX w) (fieldKK w))) ∧
  (∀ w : Word, w &&& 0xF000#16 = 0x7000#16 → decode w = .ok (.addImm (fieldX w) (fieldKK w))) ∧
  (∀ w : Word, w &&& 0xF00F#16 = 0x8000#16 → decode w = .ok (.ldReg (fieldX w) (fieldY w))) ∧
  ∀ (x y : Reg) (kk : Byte) (s : State),
    (∃ t, exec (.ldImm x kk) s = .next t ∧ t.reg x = kk ∧ PCAdvanced s t ∧ OnlyRegs s t [x]) ∧
    (∃ t, exec (.addImm x kk) s = .next t ∧ (t.reg x).toNat = ((s.reg x).toNat + kk.toNat) % 256 ∧
      PCAdvanced s t ∧ OnlyRegs s t [x]) ∧
    (∃ t, exec (.ldReg x y) s = .next t ∧ t.reg x = s.reg y ∧ PCAdvanced s t ∧ OnlyRegs s t [x])

/-- R166, R167, R168: OR, AND and XOR bit by bit; no flag. -/
def Obligations.LogicWorksBitByBit : Prop :=
  (∀ w : Word, w &&& 0xF00F#16 = 0x8001#16 → decode w = .ok (.orReg (fieldX w) (fieldY w))) ∧
  (∀ w : Word, w &&& 0xF00F#16 = 0x8002#16 → decode w = .ok (.andReg (fieldX w) (fieldY w))) ∧
  (∀ w : Word, w &&& 0xF00F#16 = 0x8003#16 → decode w = .ok (.xorReg (fieldX w) (fieldY w))) ∧
  ∀ (x y : Reg) (s : State),
    (∃ t, exec (.orReg x y) s = .next t ∧
      (∀ b < 8, (t.reg x).getLsbD b = ((s.reg x).getLsbD b || (s.reg y).getLsbD b)) ∧ PCAdvanced s t ∧ OnlyRegs s t [x]) ∧
    (∃ t, exec (.andReg x y) s = .next t ∧
      (∀ b < 8, (t.reg x).getLsbD b = ((s.reg x).getLsbD b && (s.reg y).getLsbD b)) ∧ PCAdvanced s t ∧ OnlyRegs s t [x]) ∧
    (∃ t, exec (.xorReg x y) s = .next t ∧
      (∀ b < 8, (t.reg x).getLsbD b = ((s.reg x).getLsbD b ^^ (s.reg y).getLsbD b)) ∧ PCAdvanced s t ∧ OnlyRegs s t [x])

/-- ADD Vx, Vy (R169): the sum mod 256, VF = 1 exactly on a sum above 255. With x = F the flag is what VF holds: the
spec's decision D12 (log entry 7). -/
def Obligations.AddRegSumAndCarry : Prop :=
  ∀ (x y : Reg) (s : State),
    ∃ t, exec (.addReg x y) s = .next t ∧
      (x ≠ VF → (t.reg x).toNat = ((s.reg x).toNat + (s.reg y).toNat) % 256) ∧
      ((s.reg x).toNat + (s.reg y).toNat > 255 → t.reg VF = 1#8) ∧
      ((s.reg x).toNat + (s.reg y).toNat ≤ 255 → t.reg VF = 0#8) ∧ PCAdvanced s t ∧ OnlyRegs s t [x, VF]

/-- SUB and SUBN (R170, R172): the difference mod 256, VF = 1 exactly on no borrow. With x = F the flag is what VF
holds (decision D12, log entry 7); SUBN's flag is the spec's derivation from "reverse of SUB" (R172). -/
def Obligations.SubtractionsAndNoBorrow : Prop :=
  ∀ (x y : Reg) (s : State),
    (∃ t, exec (.sub x y) s = .next t ∧
      (x ≠ VF → (t.reg x).toNat = (256 + (s.reg x).toNat - (s.reg y).toNat) % 256) ∧
      ((s.reg x).toNat ≥ (s.reg y).toNat → t.reg VF = 1#8) ∧
      ((s.reg x).toNat < (s.reg y).toNat → t.reg VF = 0#8) ∧ PCAdvanced s t ∧ OnlyRegs s t [x, VF]) ∧
    (∃ t, exec (.subn x y) s = .next t ∧
      (x ≠ VF → (t.reg x).toNat = (256 + (s.reg y).toNat - (s.reg x).toNat) % 256) ∧
      ((s.reg y).toNat ≥ (s.reg x).toNat → t.reg VF = 1#8) ∧
      ((s.reg y).toNat < (s.reg x).toNat → t.reg VF = 0#8) ∧ PCAdvanced s t ∧ OnlyRegs s t [x, VF])

/-- SHR and SHL (R171, R173): Vx halved, or doubled mod 256; VF is the bit shifted out. With x = F the flag is what VF
holds (decision D12, log entry 7). -/
def Obligations.ShiftsAndTheBitShiftedOut : Prop :=
  ∀ (x : Reg) (s : State),
    (∃ t, exec (.shr x) s = .next t ∧ (x ≠ VF → (t.reg x).toNat = (s.reg x).toNat / 2) ∧
      (t.reg VF).toNat = (s.reg x).toNat % 2 ∧ PCAdvanced s t ∧ OnlyRegs s t [x, VF]) ∧
    (∃ t, exec (.shl x) s = .next t ∧ (x ≠ VF → (t.reg x).toNat = 2 * (s.reg x).toNat % 256) ∧
      (t.reg VF).toNat = (s.reg x).toNat / 128 ∧ PCAdvanced s t ∧ OnlyRegs s t [x, VF])

/-- RND (R174): Vx is the random byte AND kk, for every random byte r, and for the free byte of the machine's own draw
(decision D17, log entry 1), after which the next draw is another one. -/
def Obligations.RndMasksTheRandomByte : Prop :=
  (∀ (r : Byte) (x : Reg) (kk : Byte) (s : State),
    ∃ t, rndWith r x kk s = .next t ∧ (∀ b < 8, (t.reg x).getLsbD b = (r.getLsbD b && kk.getLsbD b)) ∧
      PCAdvanced s t ∧ OnlyRegs s t [x]) ∧
  ∀ (x : Reg) (kk : Byte) (s : State),
    ∃ t, exec (.rnd x kk) s = .next t ∧
      (∀ b < 8, (t.reg x).getLsbD b = ((Config.randomByte s.draws).getLsbD b && kk.getLsbD b)) ∧
      t.draws = s.draws + 1 ∧ PCAdvanced s t ∧ OnlyRegs s t [x]

/-! ## Index register and memory -/

/-- R192: LD I, nnn. -/
def Obligations.LdILoadsTheAddress : Prop :=
  (∀ w : Word, w &&& 0xF000#16 = 0xA000#16 → decode w = .ok (.ldI (fieldNNN w))) ∧
  ∀ (nnn : Addr) (s : State),
    ∃ t, exec (.ldI nnn) s = .next t ∧ t.I.toNat = nnn.toNat ∧ PCAdvanced s t ∧
      KeepsRegs s t [] ∧ KeepsMemory s t ∧ t.disp = s.disp ∧ KeepsStackTimersKeys s t

/-- ADD I, Vx (R193): I + Vx mod 65536, and no register changes, VF among them (the flag is parameter FX1E_SETS_VF,
whose default the source settles, D14; log entry 8). -/
def Obligations.AddIVxAddsWithoutFlag : Prop :=
  ∀ (x : Reg) (s : State),
    ∃ t, exec (.addIVx x) s = .next t ∧ t.I.toNat = (s.I.toNat + (s.reg x).toNat) % 65536 ∧ PCAdvanced s t ∧
      KeepsRegs s t [] ∧ KeepsMemory s t ∧ t.disp = s.disp ∧ KeepsStackTimersKeys s t

/-- R194: LD F, Vx points I at the glyph of Vx's low nibble, at FONT_BASE + 5 * (V[x] & 0x0F), FONT_BASE being the
parameter. -/
def Obligations.LdFPointsAtTheGlyph : Prop :=
  (∀ w : Word, w &&& 0xF0FF#16 = 0xF029#16 → decode w = .ok (.ldFVx (fieldX w))) ∧
  ∀ (x : Reg) (s : State),
    ∃ t, exec (.ldFVx x) s = .next t ∧ t.I.toNat = params.fontBase + 5 * ((s.reg x).toNat % 16) ∧ PCAdvanced s t ∧
      KeepsRegs s t [] ∧ KeepsMemory s t ∧ t.disp = s.disp ∧ KeepsStackTimersKeys s t

/-- LD B, Vx (R195): with I to I+2 in 0x200-0xFFF, the hundreds, tens and ones go there and every other byte is
unchanged; else OutOfBounds with the lowest offending address (the fault below 0x200 is decision D5, I unchanged is
D13, the order is D23; log entries 5, 13, 16). -/
def Obligations.LdBStoresTheDigits : Prop :=
  ∀ (x : Reg) (s : State), s.mem.wf = true →
    (0x200 ≤ s.I.toNat → s.I.toNat + 2 ≤ 0xFFF →
      ∃ t, exec (.ldBVx x) s = .next t ∧
        (t.mem.read s.I.toNat).toNat = (s.reg x).toNat / 100 ∧
        (t.mem.read (s.I.toNat + 1)).toNat = (s.reg x).toNat / 10 % 10 ∧
        (t.mem.read (s.I.toNat + 2)).toNat = (s.reg x).toNat % 10 ∧
        (∀ a, a < s.I.toNat ∨ s.I.toNat + 2 < a → t.mem.read a = s.mem.read a) ∧
        PCAdvanced s t ∧ KeepsRegs s t [] ∧ t.I = s.I ∧ t.disp = s.disp ∧ KeepsStackTimersKeys s t) ∧
    (s.I.toNat < 0x200 → exec (.ldBVx x) s = .fault (.outOfBounds s.I.toNat)) ∧
    (0x200 ≤ s.I.toNat → 0xFFF < s.I.toNat + 2 →
      exec (.ldBVx x) s = .fault (.outOfBounds (max s.I.toNat 0x1000)))

/-- LD [I], Vx (R196): with I to I+x in 0x200-0xFFF, V0 to Vx go there in order and every other byte is unchanged;
else OutOfBounds with the lowest offending address (decisions D5, D13, D23; log entries 5, 13, 16). -/
def Obligations.LdMemStoresV0ToVx : Prop :=
  ∀ (x : Reg) (s : State), s.mem.wf = true →
    (0x200 ≤ s.I.toNat → s.I.toNat + x.val ≤ 0xFFF →
      ∃ t, exec (.ldMemVx x) s = .next t ∧
        (∀ k : Reg, k ≤ x → t.mem.read (s.I.toNat + k.val) = s.reg k) ∧
        (∀ a, a < s.I.toNat ∨ s.I.toNat + x.val < a → t.mem.read a = s.mem.read a) ∧
        PCAdvanced s t ∧ KeepsRegs s t [] ∧ t.I = s.I ∧ t.disp = s.disp ∧ KeepsStackTimersKeys s t) ∧
    (s.I.toNat < 0x200 → exec (.ldMemVx x) s = .fault (.outOfBounds s.I.toNat)) ∧
    (0x200 ≤ s.I.toNat → 0xFFF < s.I.toNat + x.val →
      exec (.ldMemVx x) s = .fault (.outOfBounds (max s.I.toNat 0x1000)))

/-- LD Vx, [I] (R197): with I to I+x at most 0xFFF, V0 to Vx get those bytes, the reserved region's among them, and
the registers above Vx are unchanged; else OutOfBounds with the lowest offending address (I unchanged is decision D13,
the order D23; log entries 13, 16). -/
def Obligations.LdVxMemLoadsV0ToVx : Prop :=
  ∀ (x : Reg) (s : State),
    (s.I.toNat + x.val ≤ 0xFFF →
      ∃ t, exec (.ldVxMem x) s = .next t ∧
        (∀ k : Reg, k ≤ x → t.reg k = s.mem.read (s.I.toNat + k.val)) ∧
        (∀ k : Reg, x < k → t.reg k = s.reg k) ∧
        PCAdvanced s t ∧ KeepsMemory s t ∧ t.I = s.I ∧ t.disp = s.disp ∧ KeepsStackTimersKeys s t) ∧
    (0xFFF < s.I.toNat + x.val → exec (.ldVxMem x) s = .fault (.outOfBounds (max s.I.toNat 0x1000)))

/-! ## Display -/

/-- R215, R216: CLS makes every pixel 0 and changes nothing else. -/
def Obligations.ClsClearsEveryPixel : Prop :=
  (∀ w : Word, w = 0x00E0#16 → decode w = .ok .cls) ∧
  ∀ s : State, ∃ t, exec .cls s = .next t ∧ (∀ row col, t.disp.pixel row col = false) ∧ PCAdvanced s t ∧
    KeepsRegs s t [] ∧ KeepsMemory s t ∧ t.I = s.I ∧ KeepsStackTimersKeys s t

/-- DRW (R217, R211 to R214): with the n sprite bytes at I in memory, exactly the pixels that a 1 bit of the sprite lands
on are inverted, with wraparound on both axes, bit 7 leftmost (decision D11, log entry 4); VF is 1 exactly when one of
them was on, also with x or y = F; else OutOfBounds with the lowest address above 0xFFF (order: D23, log entry 16). -/
def Obligations.DrwInvertsTheSpritesPixels : Prop :=
  ∀ (x y : Reg) (n : Nibble) (s : State), n ≠ 0#4 →
    (s.I.toNat + n.toNat ≤ 0x1000 →
      ∃ t, exec (.drw x y n) s = .next t ∧
        (∀ (row : Fin 32) (col : Fin 64),
          ((∃ r < n.toNat, ∃ c < 8, (s.mem.read (s.I.toNat + r)).getLsbD (7 - c) = true ∧
              ((s.reg y).toNat + r) % 32 = row.val ∧ ((s.reg x).toNat + c) % 64 = col.val) →
            t.disp.pixel row col = !s.disp.pixel row col) ∧
          ((¬ ∃ r < n.toNat, ∃ c < 8, (s.mem.read (s.I.toNat + r)).getLsbD (7 - c) = true ∧
              ((s.reg y).toNat + r) % 32 = row.val ∧ ((s.reg x).toNat + c) % 64 = col.val) →
            t.disp.pixel row col = s.disp.pixel row col)) ∧
        ((∃ row col, s.disp.pixel row col = true ∧ t.disp.pixel row col = false) → t.reg VF = 1#8) ∧
        ((¬ ∃ row col, s.disp.pixel row col = true ∧ t.disp.pixel row col = false) → t.reg VF = 0#8) ∧
        PCAdvanced s t ∧ KeepsRegs s t [VF] ∧ KeepsMemory s t ∧ t.I = s.I ∧ KeepsStackTimersKeys s t) ∧
    (0x1000 < s.I.toNat + n.toNat → exec (.drw x y n) s = .fault (.outOfBounds (max s.I.toNat 0x1000)))

/-- Drawing the same sprite twice at the same place restores the display, and the second draw collides if the sprite
has a 1 bit (§8 S4, R214, which the spec derives; bit order as in the draw engine). -/
def Obligations.DrawingTwiceRestoresTheDisplay : Prop :=
  ∀ (order : SpriteBitOrder) (x y : Nat) (sprite : List Byte) (d : Display), sprite.length ≤ 15 →
    (drawSprite order x y sprite (drawSprite order x y sprite d).1).1 = d ∧
    (d = Display.clear → (drawSprite order x y sprite d).2 = false ∧
      ((∃ b ∈ sprite, b ≠ 0#8) → (drawSprite order x y sprite (drawSprite order x y sprite d).1).2 = true))

/-! ## Keypad and timers -/

/-- SKP and SKNP (R232, R233): the skip on the level of key Vx; a Vx above 0x0F raises InvalidKey(Vx), the spec's
decision D16 (log entry 14). -/
def Obligations.KeySkipsReadTheKeyLevel : Prop :=
  ∀ (x : Reg) (s : State),
    (∀ k : Key, (s.reg x).toNat = k.val →
      (∃ t, exec (.skp x) s = .next t ∧ PCSkipped s t (s.key k = true) ∧ OnlyRegs s t []) ∧
      (∃ t, exec (.sknp x) s = .next t ∧ PCSkipped s t (s.key k = false) ∧ OnlyRegs s t [])) ∧
    ((s.reg x).toNat > 0x0F →
      exec (.skp x) s = .fault (.invalidKey (s.reg x)) ∧ exec (.sknp x) s = .fault (.invalidKey (s.reg x)))

/-- LD Vx, K (R234): with a key pressed, Vx gets the lowest pressed key (decision D15, log entry 9) and the PC
advances; with none, the step completes with the state unchanged. -/
def Obligations.KeyWaitTakesTheLowestKey : Prop :=
  ∀ (x : Reg) (s : State),
    (∀ k : Key, s.key k = true → (∀ j : Key, j < k → s.key j = false) →
      ∃ t, exec (.ldVxK x) s = .next t ∧ (t.reg x).toNat = k.val ∧ PCAdvanced s t ∧ OnlyRegs s t [x]) ∧
    ((∀ k : Key, s.key k = false) → exec (.ldVxK x) s = .next s)

/-- R132: a step at Fx0A with no key pressed completes with a successor equal to the pre-step state; steps, ticks, key
releases and reads do not lift the wait; a key_down lifts it; a reset and a successful load_program abandon it. -/
def Obligations.KeyWaitHoldsUntilAKeyIsPressed : Prop :=
  ∀ (x : Reg) (s : State), Fetchable s.PC → decode s.wordAtPC = .ok (.ldVxK x) → (∀ k : Key, s.key k = false) →
    step s = .next s ∧ transact .step s = (s, .ok) ∧
    (∀ ts : List Transaction,
      (∀ t ∈ ts, t = .step ∨ t = .tickTimers ∨ (∃ k, t = .keyUp k) ∨ t = .displaySnapshot ∨ t = .memoryView) →
      (transactAll ts s).PC = s.PC ∧ (transactAll ts s).V = s.V ∧ (transactAll ts s).mem = s.mem ∧
      (transactAll ts s).I = s.I ∧ (transactAll ts s).stack = s.stack ∧ (transactAll ts s).disp = s.disp ∧
      (transactAll ts s).keys = s.keys) ∧
    (∀ k : Key, ∃ t, step (keyDown k s) = .next t ∧ PCAdvanced s t ∧ (t.reg x).toNat = k.val) ∧
    (transact .reset s).1.PC = 0x200#16 ∧
    ∀ bytes, bytes.length + 0x200 ≤ 4096 → (transact (.loadProgram bytes) s).1.PC = 0x200#16

/-- R235, R236, R237: Fx07 reads DT, Fx15 writes DT, Fx18 writes ST; nothing else changes but the PC. -/
def Obligations.TimerInstructionsMoveTheTimers : Prop :=
  (∀ w : Word, w &&& 0xF0FF#16 = 0xF007#16 → decode w = .ok (.ldVxDt (fieldX w))) ∧
  (∀ w : Word, w &&& 0xF0FF#16 = 0xF015#16 → decode w = .ok (.ldDtVx (fieldX w))) ∧
  (∀ w : Word, w &&& 0xF0FF#16 = 0xF018#16 → decode w = .ok (.ldStVx (fieldX w))) ∧
  ∀ (x : Reg) (s : State),
    (∃ t, exec (.ldVxDt x) s = .next t ∧ t.reg x = s.DT ∧ PCAdvanced s t ∧ OnlyRegs s t [x]) ∧
    (∃ t, exec (.ldDtVx x) s = .next t ∧ t.DT = s.reg x ∧ PCAdvanced s t ∧ KeepsRegs s t [] ∧ KeepsMemory s t ∧
      t.I = s.I ∧ t.disp = s.disp ∧ t.stack = s.stack ∧ t.ST = s.ST ∧ t.keys = s.keys) ∧
    (∃ t, exec (.ldStVx x) s = .next t ∧ t.ST = s.reg x ∧ PCAdvanced s t ∧ KeepsRegs s t [] ∧ KeepsMemory s t ∧
      t.I = s.I ∧ t.disp = s.disp ∧ t.stack = s.stack ∧ t.DT = s.DT ∧ t.keys = s.keys)

/-! ## The whole machine -/

/-- The state after `new()` (R291): registers 0, PC 0x200, stack empty, timers 0, display clear; the font table at
FONT_BASE, RESERVED_FILL in the rest of the reserved region, 0x00 from 0x200 on. Every key released is decision D18
(log entry 17). -/
def Obligations.ResetIsTheConstructionState : Prop :=
  (∀ x, State.reset.reg x = 0#8) ∧ State.reset.I = 0#16 ∧ State.reset.PC = 0x200#16 ∧ State.reset.stack = [] ∧
  State.reset.DT = 0#8 ∧ State.reset.ST = 0#8 ∧ (∀ row col, State.reset.disp.pixel row col = false) ∧
  (∀ k, State.reset.key k = false) ∧
  (∀ (d : Fin 16) (b : Fin 5), State.reset.mem.read (params.fontBase + 5 * d.val + b.val) = params.fontTable[d][b]) ∧
  (∀ a < 0x200, a < params.fontBase ∨ params.fontBase + 80 ≤ a → State.reset.mem.read a = params.reservedFill) ∧
  ∀ a, 0x200 ≤ a → State.reset.mem.read a = 0#8

/-- The invariant holds at reset. -/
def Obligations.ResetMeetsTheInvariant : Prop := State.reset.Inv

/-- Every step keeps the invariant, from every state that meets it: memory canonical, the reserved region at its
construction contents (R62, R65, R67: the write fault is decision D5), the depth at most 16 (R27, R28). -/
def Obligations.StepKeepsTheInvariant : Prop :=
  ∀ s t : State, s.Inv → step s = .next t → t.Inv

/-- Every state that transactions reach from `new()` meets the invariant: steps, loads, resets, ticks, key events and
reads in any order (R5, R269, R293). -/
def Obligations.ReachableStatesMeetTheInvariant : Prop :=
  (∀ s : State, Reachable s → s.Inv) ∧ ∀ (t : Transaction) (s : State), s.Inv → (transact t s).1.Inv

/-- Only Fx15 writes DT and only Fx18 writes ST among the instructions, and no instruction changes the keypad
(R29, R30, R32, R121). -/
def Obligations.InstructionsNeverCountDownOrPressKeys : Prop :=
  ∀ (i : Instr) (s t : State), exec i s = .next t →
    t.keys = s.keys ∧ ((∀ x, i ≠ .ldDtVx x) → t.DT = s.DT) ∧ ((∀ x, i ≠ .ldStVx x) → t.ST = s.ST)

/-- Only CALL and RET change the stack; only Annn, Fx1E and Fx29 change I; only 00E0 and Dxyn change the display; only
Fx33 and Fx55 change memory (R25, R27, R31, R68; I unchanged by Fx55 and Fx65 is decision D13, log entry 13). -/
def Obligations.EachUnitHasItsOwnWriters : Prop :=
  ∀ (i : Instr) (s t : State), exec i s = .next t →
    ((∀ nnn, i ≠ .call nnn) → i ≠ .ret → t.stack = s.stack) ∧
    ((∀ nnn, i ≠ .ldI nnn) → (∀ x, i ≠ .addIVx x) → (∀ x, i ≠ .ldFVx x) → t.I = s.I) ∧
    (i ≠ .cls → (∀ x y n, i ≠ .drw x y n) → t.disp = s.disp) ∧
    ((∀ x, i ≠ .ldBVx x) → (∀ x, i ≠ .ldMemVx x) → t.mem = s.mem)

/-- A register changes only under an instruction that names it: as Vx, as the flag VF of 8xy4 to 8xy7, 8xyE and Dxyn,
or among V0 to Vx of Fx65 (R22, R23; 90_conflicts.md C10). -/
def Obligations.OnlyNamedRegistersChange : Prop :=
  ∀ (i : Instr) (s t : State), exec i s = .next t → KeepsRegs s t (writtenRegs i)

/-- R126: the next_pc of every instruction; a failed step commits none. -/
def Obligations.EveryInstructionCommitsItsNextPC : Prop :=
  (∀ (i : Instr) (s t : State), exec i s = .next t →
    match i with
    | .jp nnn | .call nnn => t.PC.toNat = nnn.toNat
    | .ret => s.stack.head? = some t.PC
    | .jpV0 nnn => t.PC.toNat = (nnn.toNat + (s.reg 0).toNat) % 65536
    | .seImm x kk => PCSkipped s t (s.reg x = kk)
    | .sneImm x kk => PCSkipped s t (s.reg x ≠ kk)
    | .seReg x y => PCSkipped s t (s.reg x = s.reg y)
    | .sneReg x y => PCSkipped s t (s.reg x ≠ s.reg y)
    | .skp x => PCSkipped s t (∃ k : Key, k.val = (s.reg x).toNat ∧ s.key k = true)
    | .sknp x => PCSkipped s t (∃ k : Key, k.val = (s.reg x).toNat ∧ s.key k = false)
    | .ldVxK _ => ((∀ k, s.key k = false) → t.PC = s.PC) ∧ ((∃ k, s.key k = true) → PCAdvanced s t)
    | _ => PCAdvanced s t) ∧
  ∀ (s : State) (e : Fault), step s = .fault e → (transact .step s).1.PC = s.PC

/-- R127: a step that raises an error leaves every piece of state as it was. -/
def Obligations.ErrorsLeaveTheStateAsItWas : Prop :=
  ∀ (s : State) (e : Fault), step s = .fault e → transact .step s = (s, .err e)

/-- Each error kind comes from the instructions that R251's table names, exec never refuses, and no step raises
InvalidRegister (R256) (the payloads and InvalidKey are decisions D7, D16). -/
def Obligations.ErrorsComeFromTheirInstructions : Prop :=
  (∀ (i : Instr) (s : State),
    match exec i s with
    | .next _ => True
    | .fault (.outOfBounds _) =>
      (∃ x y n, i = .drw x y n) ∨ (∃ x, i = .ldBVx x) ∨ (∃ x, i = .ldMemVx x) ∨ (∃ x, i = .ldVxMem x)
    | .fault .stackOverflow => ∃ nnn, i = .call nnn
    | .fault .stackUnderflow => i = .ret
    | .fault (.unknownOpcode _) => False
    | .fault (.invalidRegister _) => False
    | .fault (.invalidKey v) => ∃ x, (i = .skp x ∨ i = .sknp x) ∧ v = s.reg x ∧ v.toNat > 0x0F
    | .refused _ => False) ∧
  ∀ s : State, (∃ t, step s = .next t) ∨ (∃ e, step s = .fault e ∧ ∀ n, e ≠ .invalidRegister n)

/-- An error recurs: no tick and no key event changes what a failing step does (R131, the spec's decision D24, log
entry 18). -/
def Obligations.ErrorsRecurAcrossTicksAndKeys : Prop :=
  ∀ (ts : List Transaction) (s : State) (e : Fault),
    (∀ t ∈ ts, t = .step ∨ t = .tickTimers ∨ (∃ k, t = .keyDown k) ∨ (∃ k, t = .keyUp k) ∨ t = .displaySnapshot ∨
      t = .memoryView) →
    step s = .fault e → step (transactAll ts s) = .fault e

/-- Only RND reads the random byte: two steps from one state that draw different bytes give the same result unless
the word is a Cxkk, for every parameter setting (R129, R130; decision D17, log entry 1). -/
def Obligations.OnlyRndReadsTheRandomByte : Prop :=
  ∀ (p : Params) (r r' : Byte) (s : State), stepWith p r s = stepWith p r' s ∨
    ∃ x kk, fetchDecode p s = .ok (.rnd x kk) ∧
      ∀ r'' : Byte, ∃ t, stepWith p r'' s = .next t ∧ t.reg x = r'' &&& kk

/-- The sound timer is invisible to a program: a state that differs only in ST runs to a result that differs only in
ST, and after LD ST, Vx not even there (R30, R39). -/
def Obligations.SoundTimerIsInvisible : Prop :=
  ∀ (i : Instr) (v : Byte) (s : State),
    match exec i s with
    | .next t => exec i { s with ST := v } = .next { t with ST := match i with | .ldStVx _ => t.ST | _ => v }
    | .fault e => exec i { s with ST := v } = .fault e
    | .refused r => exec i { s with ST := v } = .refused r

/-! ## The host interface -/

/-- R264: one tick takes 1 off each counter that is not 0 and changes nothing else; so n ticks take off n, never below
0. -/
def Obligations.TicksCountDownToZero : Prop :=
  (∀ s : State, transact .tickTimers s = (tickTimers s, .ok) ∧
    (tickTimers s).DT.toNat = s.DT.toNat - 1 ∧ (tickTimers s).ST.toNat = s.ST.toNat - 1 ∧
    tickTimers s = { s with DT := (tickTimers s).DT, ST := (tickTimers s).ST }) ∧
  ∀ (n : Nat) (s : State),
    (transactAll (List.replicate n .tickTimers) s).DT.toNat = s.DT.toNat - n ∧
    (transactAll (List.replicate n .tickTimers) s).ST.toNat = s.ST.toNat - n

/-- R267: key_down and key_up set the level of their key and change nothing else; repeating one changes nothing, and a
press and release between two steps leave no trace. -/
def Obligations.KeyEventsSetTheirKey : Prop :=
  ∀ (k : Key) (s : State),
    (∀ j, (keyDown k s).key j = if j = k then true else s.key j) ∧
    (∀ j, (keyUp k s).key j = if j = k then false else s.key j) ∧
    keyDown k s = { s with keys := (keyDown k s).keys } ∧ keyUp k s = { s with keys := (keyUp k s).keys } ∧
    keyDown k (keyDown k s) = keyDown k s ∧ keyUp k (keyUp k s) = keyUp k s ∧
    (s.key k = false → keyUp k (keyDown k s) = s) ∧
    transact (.keyDown k) s = (keyDown k s, .ok) ∧ transact (.keyUp k) s = (keyUp k s, .ok)

/-- `reset()` gives every element its construction value but the keypad, which it keeps (R292; decision D18, log entry
17), and never fails. -/
def Obligations.ResetKeepsOnlyTheKeypad : Prop :=
  ∀ s : State, (transact .reset s).2 = .ok ∧ (transact .reset s).1.keys = s.keys ∧
    (∀ a, (transact .reset s).1.mem.read a = State.reset.mem.read a) ∧ (transact .reset s).1.V = State.reset.V ∧
    (transact .reset s).1.I = State.reset.I ∧ (transact .reset s).1.PC = State.reset.PC ∧
    (transact .reset s).1.stack = State.reset.stack ∧ (transact .reset s).1.DT = State.reset.DT ∧
    (transact .reset s).1.ST = State.reset.ST ∧ (transact .reset s).1.disp = State.reset.disp

/-- R295: load_program fails with OutOfBounds exactly when the image does not fit, 3584 bytes being the largest that
does, and a failed load changes no state. (The payload: LoadResetsThenCopies.) -/
def Obligations.LoadFailsOnlyWhenTooLong : Prop :=
  ∀ (bytes : List Byte) (s : State),
    (bytes.length + 0x200 > 4096 → ∃ a, transact (.loadProgram bytes) s = (s, .err (.outOfBounds a))) ∧
    (bytes.length ≤ 3584 → (transact (.loadProgram bytes) s).2 = .ok)

/-- A successful load_program is a reset and then the image from 0x200 on, with 0x00 past it (R294; the order check,
reset, copy is decision D19, log entry 19). An empty image is a reset. A longer
image raises OutOfBounds(0x1000), the payload being decision D7 (log entry 22). A load that raises an error leaves every
piece of state as it was, the reset not performed either (D19). -/
def Obligations.LoadResetsThenCopies : Prop :=
  ∀ (bytes : List Byte) (s : State),
    (3584 < bytes.length → loadProgram bytes s = .fault (.outOfBounds 0x1000)) ∧
    (∀ e, loadProgram bytes s = .fault e → transact (.loadProgram bytes) s = (s, .err e)) ∧
    (bytes.length ≤ 3584 → ∃ t, loadProgram bytes s = .next t ∧
      (∀ (k : Nat) (h : k < bytes.length), t.mem.read (0x200 + k) = bytes[k]) ∧
      (∀ a, a < 0x200 ∨ 0x200 + bytes.length ≤ a → t.mem.read a = State.reset.mem.read a) ∧
      t = { resetCore s with mem := t.mem } ∧ (bytes = [] → t = resetCore s))

/-- R268, R80: display_snapshot is the 2048 pixels in row-major order, memory_view the 4096 bytes in address order, and
neither changes the state. -/
def Obligations.SnapshotsListPixelsAndBytes : Prop :=
  ∀ s : State,
    transact .displaySnapshot s = (s, .pixels (displaySnapshot s)) ∧ (displaySnapshot s).length = 2048 ∧
    (∀ (row : Fin 32) (col : Fin 64),
      (displaySnapshot s)[row.val * 64 + col.val]? = some (BitVec.ofBool (s.disp.pixel row col))) ∧
    transact .memoryView s = (s, .bytes (memoryView s)) ∧ (memoryView s).length = 4096 ∧
    ∀ a < 4096, (memoryView s)[a]? = some (s.mem.read a)

/-! ## The parameters of R6 -/

/-- The operations that take the parameters as arguments are, at the defaults, the machine's own: `stepWith` with the free
random byte of the draw (log entry 1) is `step`, and the same for `new()`, `reset()`, `load_program` and every transaction
(R6, R130). -/
def Obligations.DefaultsGiveTheMachine : Prop :=
  (∀ s : State, step s = stepWith params (Config.randomByte s.draws) s) ∧
  newWith params = State.reset ∧ (∀ s : State, resetWith params s = resetCore s) ∧
  (∀ (bytes : List Byte) (s : State), loadProgramWith params bytes s = loadProgram bytes s) ∧
  ∀ (t : Transaction) (s : State), transactWith params (Config.randomByte s.draws) t s = transact t s

/-- The parameters of R6 at every setting other than the defaults.
FONT_BASE, FONT_TABLE, RESERVED_FILL (D2, D3, D4; log entries 2, 3), where the font lies in the reserved region: `new()`,
`reset()` and a load leave that font and that fill, 0x00 above (R63, R65, R292, R294), and Fx29 points into that font.
FONT_WRITE_POLICY = ignore (R67, D5; log entry 5): Fx33 and Fx55 with every address at most 0xFFF complete, drop the bytes
for the reserved region and store the others; with an address above 0xFFF they raise OutOfBounds.
FETCH_ALIGN_CHECK = false (D6; log entry 6): an odd PC in bounds is fetched.
DXY0_POLICY = noop_vf0 (D10; log entry 12): Dxy0 decodes, draws nothing and sets VF to 0.
SPRITE_BIT_ORDER = lsb_left (D11; log entry 4): bit 0 is leftmost.
LDST_INCREMENTS_I (R191, D13; log entry 13): I after Fx55 and Fx65 is I + x + 1 or unchanged.
FX1E_SETS_VF = true, to which the spec gives no semantics (U1, D14): Fx1E adds as ever, and VF gets the free value of log
entry 8.
KEY_WAIT_SELECT = any (D15; log entry 9): Fx0A takes some pressed key.
KEY_INDEX_POLICY = low_nibble (R231, D16; log entry 14): in Ex9E and ExA1 the low nibble names the key. -/
def Obligations.ParametersSelectTheirSettings : Prop :=
  ∀ (p : Params) (x y : Reg) (s : State),
    (p.fontFits →
      HoldsFontAndFill p (newWith p) ∧ ClearFrom 0x200 (newWith p) ∧
      (resetWith p s).mem = (newWith p).mem ∧ (resetWith p s).keys = s.keys ∧
      (∀ bytes : List Byte, bytes.length ≤ 3584 → ∃ t, loadProgramWith p bytes s = .next t ∧
        HoldsFontAndFill p t ∧ ClearFrom (0x200 + bytes.length) t ∧
        (∀ (k : Nat) (h : k < bytes.length), t.mem.read (0x200 + k) = bytes[k]) ∧
        t = { resetWith p s with mem := t.mem }) ∧
      ∃ t, ldFVxWith p x s = .next t ∧ t.I.toNat = p.fontBase + 5 * ((s.reg x).toNat % 16) ∧ PCAdvanced s t ∧
        KeepsRegs s t [] ∧ KeepsMemory s t ∧ t.disp = s.disp ∧ KeepsStackTimersKeys s t) ∧
    (p.fontWritePolicy = .ignore → s.mem.wf = true →
      (s.I.toNat + x.val ≤ 0xFFF →
        ∃ t, ldMemVxWith p x s = .next t ∧ (∀ a < 0x200, t.mem.read a = s.mem.read a) ∧
          (∀ a, a < s.I.toNat ∨ s.I.toNat + x.val < a → t.mem.read a = s.mem.read a) ∧
          (∀ k : Reg, k ≤ x → 0x200 ≤ s.I.toNat + k.val → t.mem.read (s.I.toNat + k.val) = s.reg k) ∧ PCAdvanced s t) ∧
      (0xFFF < s.I.toNat + x.val → ldMemVxWith p x s = .fault (.outOfBounds (max s.I.toNat 0x1000))) ∧
      (s.I.toNat + 2 ≤ 0xFFF →
        ∃ t, ldBVxWith p x s = .next t ∧ (∀ a < 0x200, t.mem.read a = s.mem.read a) ∧
          (∀ a, a < s.I.toNat ∨ s.I.toNat + 2 < a → t.mem.read a = s.mem.read a) ∧
          (0x200 ≤ s.I.toNat → (t.mem.read s.I.toNat).toNat = (s.reg x).toNat / 100) ∧
          (0x200 ≤ s.I.toNat + 1 → (t.mem.read (s.I.toNat + 1)).toNat = (s.reg x).toNat / 10 % 10) ∧
          (0x200 ≤ s.I.toNat + 2 → (t.mem.read (s.I.toNat + 2)).toNat = (s.reg x).toNat % 10) ∧ PCAdvanced s t) ∧
      (0xFFF < s.I.toNat + 2 → ldBVxWith p x s = .fault (.outOfBounds (max s.I.toNat 0x1000)))) ∧
    (p.fetchAlignCheck = false → 0x200 ≤ s.PC.toNat → s.PC.toNat + 1 ≤ 0xFFF →
      fetch p.fetchAlignCheck s = .ok s.wordAtPC) ∧
    (∀ w : Word, fieldFamily w = 0xD → decodeWith .noopVf0 w = .ok (.drw (fieldX w) (fieldY w) (fieldN w))) ∧
    (∃ t, drwWith p x y 0#4 s = .next t ∧ t.disp = s.disp ∧ t.reg VF = 0#8 ∧ PCAdvanced s t) ∧
    (∀ b : Byte, ∀ c < 8, spriteBit .lsbLeft b c = spriteBit .msbLeft b (7 - c)) ∧
    (∀ t, ldMemVxWith p x s = .next t ∨ ldVxMemWith p x s = .next t →
      (p.ldstIncrementsI = true → t.I.toNat = (s.I.toNat + x.val + 1) % 65536) ∧
      (p.ldstIncrementsI = false → t.I = s.I)) ∧
    (p.fx1eSetsVf = true →
      ∃ t, addIVxWith p x s = .next t ∧ t.I.toNat = (s.I.toNat + (s.reg x).toNat) % 65536 ∧
        t.reg VF = Config.fx1eFlag s.I (s.reg x) ∧ PCAdvanced s t ∧
        KeepsRegs s t [VF] ∧ KeepsMemory s t ∧ t.disp = s.disp ∧ KeepsStackTimersKeys s t) ∧
    (p.keyWaitSelect = .any → (∃ k, s.key k = true) →
      ∃ t k, ldVxKWith p x s = .next t ∧ s.key k = true ∧ (t.reg x).toNat = k.val ∧ PCAdvanced s t) ∧
    (p.keyIndexPolicy = .lowNibble →
      (∃ t, keySkipWith p true x s = .next t ∧ PCSkipped s t (s.key (Fin.ofNat 16 (s.reg x).toNat) = true)) ∧
      ∃ t, keySkipWith p false x s = .next t ∧ PCSkipped s t (s.key (Fin.ofNat 16 (s.reg x).toNat) = false))
end

