-- ==== Sys2Proof/Laws/Decode.lean ====
section
/-! SUPPORT. The fields of an encoded word read back as they were put in; bytes and words; and what a word of each
row of the opcode table decodes to. -/

namespace Sys2Proof

/-! ## The bits of an encoded word -/

@[simp] theorem toFin_regField (x : Reg) : (regField x).toFin = x := rfl

@[simp] theorem regField_fieldX (w : Word) : regField (fieldX w) = w.extractLsb' 8 4 := rfl

@[simp] theorem regField_fieldY (w : Word) : regField (fieldY w) = w.extractLsb' 4 4 := rfl

theorem getLsbD_encNNN (f : Nibble) (nnn : Addr) (i : Nat) :
    (encNNN f nnn).getLsbD i = if i < 12 then nnn.getLsbD i else f.getLsbD (i - 12) := by
  unfold encNNN; rw [BitVec.getLsbD_append]

theorem getLsbD_encXKK (f : Nibble) (x : Reg) (kk : Byte) (i : Nat) :
    (encXKK f x kk).getLsbD i = if i < 8 then kk.getLsbD i
      else if i - 8 < 4 then (regField x).getLsbD (i - 8) else f.getLsbD (i - 8 - 4) := by
  unfold encXKK; rw [BitVec.getLsbD_append, BitVec.getLsbD_append]

theorem getLsbD_encXYN (f : Nibble) (x y : Reg) (n : Nibble) (i : Nat) :
    (encXYN f x y n).getLsbD i = if i < 4 then n.getLsbD i
      else if i - 4 < 4 then (regField y).getLsbD (i - 4)
      else if i - 4 - 4 < 4 then (regField x).getLsbD (i - 4 - 4) else f.getLsbD (i - 4 - 4 - 4) := by
  unfold encXYN; rw [BitVec.getLsbD_append, BitVec.getLsbD_append, BitVec.getLsbD_append]

theorem getLsbD_wordOfBytes (hi lo : Byte) (i : Nat) :
    (wordOfBytes hi lo).getLsbD i = if i < 8 then lo.getLsbD i else hi.getLsbD (i - 8) := by
  unfold wordOfBytes; rw [BitVec.getLsbD_append]

/-! ## Fields of an encoded word -/

@[simp] theorem fieldFamily_encNNN (f : Nibble) (nnn : Addr) : fieldFamily (encNNN f nnn) = f.toNat := by
  have : (encNNN f nnn).extractLsb' 12 4 = f := by
    apply BitVec.eq_of_getLsbD_eq; intro i hi
    rw [BitVec.getLsbD_extractLsb', getLsbD_encNNN]
    simp [hi]
  unfold fieldFamily; rw [this]

@[simp] theorem fieldNNN_encNNN (f : Nibble) (nnn : Addr) : fieldNNN (encNNN f nnn) = nnn := by
  have : (encNNN f nnn).extractLsb' 0 12 = nnn := by
    apply BitVec.eq_of_getLsbD_eq; intro i hi
    rw [BitVec.getLsbD_extractLsb', getLsbD_encNNN]
    simp [hi]
  unfold fieldNNN; rw [this]

@[simp] theorem fieldFamily_encXKK (f : Nibble) (x : Reg) (kk : Byte) : fieldFamily (encXKK f x kk) = f.toNat := by
  have : (encXKK f x kk).extractLsb' 12 4 = f := by
    apply BitVec.eq_of_getLsbD_eq; intro i hi
    rw [BitVec.getLsbD_extractLsb', getLsbD_encXKK]
    simp [hi, show ¬ 12 + i < 8 by omega, show ¬ 12 + i - 8 < 4 by omega, show 12 + i - 8 - 4 = i by omega]
  unfold fieldFamily; rw [this]

@[simp] theorem fieldX_encXKK (f : Nibble) (x : Reg) (kk : Byte) : fieldX (encXKK f x kk) = x := by
  have : (encXKK f x kk).extractLsb' 8 4 = regField x := by
    apply BitVec.eq_of_getLsbD_eq; intro i hi
    rw [BitVec.getLsbD_extractLsb', getLsbD_encXKK]
    simp [hi]
  unfold fieldX; rw [this]; rfl

@[simp] theorem fieldKK_encXKK (f : Nibble) (x : Reg) (kk : Byte) : fieldKK (encXKK f x kk) = kk := by
  have : (encXKK f x kk).extractLsb' 0 8 = kk := by
    apply BitVec.eq_of_getLsbD_eq; intro i hi
    rw [BitVec.getLsbD_extractLsb', getLsbD_encXKK]
    simp [hi]
  unfold fieldKK; rw [this]

@[simp] theorem fieldFamily_encXYN (f : Nibble) (x y : Reg) (n : Nibble) : fieldFamily (encXYN f x y n) = f.toNat := by
  have : (encXYN f x y n).extractLsb' 12 4 = f := by
    apply BitVec.eq_of_getLsbD_eq; intro i hi
    rw [BitVec.getLsbD_extractLsb', getLsbD_encXYN]
    simp [hi, show ¬ 12 + i < 4 by omega, show ¬ 12 + i - 4 < 4 by omega, show ¬ 12 + i - 4 - 4 < 4 by omega, show 12 + i - 4 - 4 - 4 = i by omega]
  unfold fieldFamily; rw [this]

@[simp] theorem fieldX_encXYN (f : Nibble) (x y : Reg) (n : Nibble) : fieldX (encXYN f x y n) = x := by
  have : (encXYN f x y n).extractLsb' 8 4 = regField x := by
    apply BitVec.eq_of_getLsbD_eq; intro i hi
    rw [BitVec.getLsbD_extractLsb', getLsbD_encXYN]
    simp [hi, show ¬ 8 + i < 4 by omega, show ¬ 8 + i - 4 < 4 by omega, show 8 + i - 4 - 4 = i by omega]
  unfold fieldX; rw [this]; rfl

@[simp] theorem fieldY_encXYN (f : Nibble) (x y : Reg) (n : Nibble) : fieldY (encXYN f x y n) = y := by
  have : (encXYN f x y n).extractLsb' 4 4 = regField y := by
    apply BitVec.eq_of_getLsbD_eq; intro i hi
    rw [BitVec.getLsbD_extractLsb', getLsbD_encXYN]
    simp [hi]
  unfold fieldY; rw [this]; rfl

@[simp] theorem fieldN_encXYN (f : Nibble) (x y : Reg) (n : Nibble) : fieldN (encXYN f x y n) = n := by
  have : (encXYN f x y n).extractLsb' 0 4 = n := by
    apply BitVec.eq_of_getLsbD_eq; intro i hi
    rw [BitVec.getLsbD_extractLsb', getLsbD_encXYN]
    simp [hi]
  unfold fieldN; rw [this]

/-! ## A word is its fields -/

theorem word_eq_encNNN (w : Word) : w = encNNN (w.extractLsb' 12 4) (fieldNNN w) := by
  apply BitVec.eq_of_getLsbD_eq; intro i hi
  rw [getLsbD_encNNN, fieldNNN]
  by_cases h : i < 12
  · simp [h]
  · simp [h, show i - 12 < 4 by omega, show 12 + (i - 12) = i by omega]

theorem word_eq_encXKK (w : Word) : w = encXKK (w.extractLsb' 12 4) (fieldX w) (fieldKK w) := by
  apply BitVec.eq_of_getLsbD_eq; intro i hi
  rw [getLsbD_encXKK, regField_fieldX, fieldKK]
  by_cases h : i < 8
  · simp [h]
  · by_cases h' : i - 8 < 4
    · simp [h, h', show 8 + (i - 8) = i by omega]
    · simp [h, h', show i - 8 - 4 < 4 by omega, show 12 + (i - 8 - 4) = i by omega]

theorem word_eq_encXYN (w : Word) : w = encXYN (w.extractLsb' 12 4) (fieldX w) (fieldY w) (fieldN w) := by
  apply BitVec.eq_of_getLsbD_eq; intro i hi
  rw [getLsbD_encXYN, regField_fieldX, regField_fieldY, fieldN]
  by_cases h : i < 4
  · simp [h]
  · by_cases h' : i - 4 < 4
    · simp [h, h', show 4 + (i - 4) = i by omega]
    · by_cases h'' : i - 4 - 4 < 4
      · simp [h, h', h'', show 8 + (i - 4 - 4) = i by omega]
      · simp [h, h', h'', show i - 4 - 4 - 4 < 4 by omega, show 12 + (i - 4 - 4 - 4) = i by omega]

theorem fieldFamily_lt (w : Word) : fieldFamily w < 16 := (w.extractLsb' 12 4).isLt

theorem family_eq_of_toNat {w : Word} {f : Nibble} (h : fieldFamily w = f.toNat) : w.extractLsb' 12 4 = f :=
  BitVec.eq_of_toNat_eq h

/-! ## Bytes and words (R70) -/

@[simp] theorem wordOfBytes_high_low (w : Word) : wordOfBytes (highByte w) (lowByte w) = w := by
  apply BitVec.eq_of_getLsbD_eq; intro i hi
  rw [getLsbD_wordOfBytes, highByte, lowByte]
  by_cases h : i < 8
  · simp [h]
  · simp [h, show i - 8 < 8 by omega, show 8 + (i - 8) = i by omega]

@[simp] theorem highByte_wordOfBytes (hi lo : Byte) : highByte (wordOfBytes hi lo) = hi := by
  apply BitVec.eq_of_getLsbD_eq; intro i h
  rw [highByte, BitVec.getLsbD_extractLsb', getLsbD_wordOfBytes]; simp [h]

@[simp] theorem lowByte_wordOfBytes (hi lo : Byte) : lowByte (wordOfBytes hi lo) = lo := by
  apply BitVec.eq_of_getLsbD_eq; intro i h
  rw [lowByte, BitVec.getLsbD_extractLsb', getLsbD_wordOfBytes]; simp [h]

/-! ## What the mask of a row fixes -/

/-- Bits that a mask keeps are the bits of the masked word. -/
theorem extract_of_mask {w m c : Word} (h : w &&& m = c) (s n : Nat)
    (hm : ∀ i < n, m.getLsbD (s + i) = true) : w.extractLsb' s n = c.extractLsb' s n := by
  subst h
  apply BitVec.eq_of_getLsbD_eq; intro i hi
  simp [hi, hm i hi]

theorem family_of_mask {w m c : Word} (h : w &&& m = c) (hm : ∀ i < 4, m.getLsbD (12 + i) = true) :
    fieldFamily w = fieldFamily c := congrArg BitVec.toNat (extract_of_mask h 12 4 hm)

theorem fieldN_of_mask {w m c : Word} (h : w &&& m = c) (hm : ∀ i < 4, m.getLsbD (0 + i) = true) :
    fieldN w = fieldN c := extract_of_mask h 0 4 hm

theorem fieldKK_of_mask {w m c : Word} (h : w &&& m = c) (hm : ∀ i < 8, m.getLsbD (0 + i) = true) :
    fieldKK w = fieldKK c := extract_of_mask h 0 8 hm

@[simp] theorem params_dxy0Policy : Machine.params.dxy0Policy = .fault := rfl

/-! ## What a word of each row decodes to (R95) -/

theorem decode_jp {w : Word} (h : w &&& 0xF000#16 = 0x1000#16) :
    decode w = .ok (.jp (fieldNNN w)) := by
  have hf : fieldFamily w = 1 := family_of_mask h (by decide)
  simp [decode, decodeWith, hf]

theorem decode_call {w : Word} (h : w &&& 0xF000#16 = 0x2000#16) :
    decode w = .ok (.call (fieldNNN w)) := by
  have hf : fieldFamily w = 2 := family_of_mask h (by decide)
  simp [decode, decodeWith, hf]

theorem decode_seImm {w : Word} (h : w &&& 0xF000#16 = 0x3000#16) :
    decode w = .ok (.seImm (fieldX w) (fieldKK w)) := by
  have hf : fieldFamily w = 3 := family_of_mask h (by decide)
  simp [decode, decodeWith, hf]

theorem decode_sneImm {w : Word} (h : w &&& 0xF000#16 = 0x4000#16) :
    decode w = .ok (.sneImm (fieldX w) (fieldKK w)) := by
  have hf : fieldFamily w = 4 := family_of_mask h (by decide)
  simp [decode, decodeWith, hf]

theorem decode_seReg {w : Word} (h : w &&& 0xF00F#16 = 0x5000#16) :
    decode w = .ok (.seReg (fieldX w) (fieldY w)) := by
  have hf : fieldFamily w = 5 := family_of_mask h (by decide)
  have hn : fieldN w = 0#4 := fieldN_of_mask h (by decide)
  simp [decode, decodeWith, hf, hn]

theorem decode_ldImm {w : Word} (h : w &&& 0xF000#16 = 0x6000#16) :
    decode w = .ok (.ldImm (fieldX w) (fieldKK w)) := by
  have hf : fieldFamily w = 6 := family_of_mask h (by decide)
  simp [decode, decodeWith, hf]

theorem decode_addImm {w : Word} (h : w &&& 0xF000#16 = 0x7000#16) :
    decode w = .ok (.addImm (fieldX w) (fieldKK w)) := by
  have hf : fieldFamily w = 7 := family_of_mask h (by decide)
  simp [decode, decodeWith, hf]

theorem decode_ldReg {w : Word} (h : w &&& 0xF00F#16 = 0x8000#16) :
    decode w = .ok (.ldReg (fieldX w) (fieldY w)) := by
  have hf : fieldFamily w = 8 := family_of_mask h (by decide)
  have hn : fieldN w = 0#4 := fieldN_of_mask h (by decide)
  simp [decode, decodeWith, hf, hn, decodeFamily8]

theorem decode_orReg {w : Word} (h : w &&& 0xF00F#16 = 0x8001#16) :
    decode w = .ok (.orReg (fieldX w) (fieldY w)) := by
  have hf : fieldFamily w = 8 := family_of_mask h (by decide)
  have hn : fieldN w = 1#4 := fieldN_of_mask h (by decide)
  simp [decode, decodeWith, hf, hn, decodeFamily8]

theorem decode_andReg {w : Word} (h : w &&& 0xF00F#16 = 0x8002#16) :
    decode w = .ok (.andReg (fieldX w) (fieldY w)) := by
  have hf : fieldFamily w = 8 := family_of_mask h (by decide)
  have hn : fieldN w = 2#4 := fieldN_of_mask h (by decide)
  simp [decode, decodeWith, hf, hn, decodeFamily8]

theorem decode_xorReg {w : Word} (h : w &&& 0xF00F#16 = 0x8003#16) :
    decode w = .ok (.xorReg (fieldX w) (fieldY w)) := by
  have hf : fieldFamily w = 8 := family_of_mask h (by decide)
  have hn : fieldN w = 3#4 := fieldN_of_mask h (by decide)
  simp [decode, decodeWith, hf, hn, decodeFamily8]

theorem decode_addReg {w : Word} (h : w &&& 0xF00F#16 = 0x8004#16) :
    decode w = .ok (.addReg (fieldX w) (fieldY w)) := by
  have hf : fieldFamily w = 8 := family_of_mask h (by decide)
  have hn : fieldN w = 4#4 := fieldN_of_mask h (by decide)
  simp [decode, decodeWith, hf, hn, decodeFamily8]

theorem decode_sub {w : Word} (h : w &&& 0xF00F#16 = 0x8005#16) :
    decode w = .ok (.sub (fieldX w) (fieldY w)) := by
  have hf : fieldFamily w = 8 := family_of_mask h (by decide)
  have hn : fieldN w = 5#4 := fieldN_of_mask h (by decide)
  simp [decode, decodeWith, hf, hn, decodeFamily8]

theorem decode_shr {w : Word} (h : w &&& 0xF00F#16 = 0x8006#16) :
    decode w = .ok (.shr (fieldX w)) := by
  have hf : fieldFamily w = 8 := family_of_mask h (by decide)
  have hn : fieldN w = 6#4 := fieldN_of_mask h (by decide)
  simp [decode, decodeWith, hf, hn, decodeFamily8]

theorem decode_subn {w : Word} (h : w &&& 0xF00F#16 = 0x8007#16) :
    decode w = .ok (.subn (fieldX w) (fieldY w)) := by
  have hf : fieldFamily w = 8 := family_of_mask h (by decide)
  have hn : fieldN w = 7#4 := fieldN_of_mask h (by decide)
  simp [decode, decodeWith, hf, hn, decodeFamily8]

theorem decode_shl {w : Word} (h : w &&& 0xF00F#16 = 0x800E#16) :
    decode w = .ok (.shl (fieldX w)) := by
  have hf : fieldFamily w = 8 := family_of_mask h (by decide)
  have hn : fieldN w = 14#4 := fieldN_of_mask h (by decide)
  simp [decode, decodeWith, hf, hn, decodeFamily8]

theorem decode_sneReg {w : Word} (h : w &&& 0xF00F#16 = 0x9000#16) :
    decode w = .ok (.sneReg (fieldX w) (fieldY w)) := by
  have hf : fieldFamily w = 9 := family_of_mask h (by decide)
  have hn : fieldN w = 0#4 := fieldN_of_mask h (by decide)
  simp [decode, decodeWith, hf, hn]

theorem decode_ldI {w : Word} (h : w &&& 0xF000#16 = 0xA000#16) :
    decode w = .ok (.ldI (fieldNNN w)) := by
  have hf : fieldFamily w = 10 := family_of_mask h (by decide)
  simp [decode, decodeWith, hf]

theorem decode_jpV0 {w : Word} (h : w &&& 0xF000#16 = 0xB000#16) :
    decode w = .ok (.jpV0 (fieldNNN w)) := by
  have hf : fieldFamily w = 11 := family_of_mask h (by decide)
  simp [decode, decodeWith, hf]

theorem decode_rnd {w : Word} (h : w &&& 0xF000#16 = 0xC000#16) :
    decode w = .ok (.rnd (fieldX w) (fieldKK w)) := by
  have hf : fieldFamily w = 12 := family_of_mask h (by decide)
  simp [decode, decodeWith, hf]

theorem decode_skp {w : Word} (h : w &&& 0xF0FF#16 = 0xE09E#16) :
    decode w = .ok (.skp (fieldX w)) := by
  have hf : fieldFamily w = 14 := family_of_mask h (by decide)
  have hk : fieldKK w = 158#8 := fieldKK_of_mask h (by decide)
  simp [decode, decodeWith, hf, decodeFamilyE, hk]

theorem decode_sknp {w : Word} (h : w &&& 0xF0FF#16 = 0xE0A1#16) :
    decode w = .ok (.sknp (fieldX w)) := by
  have hf : fieldFamily w = 14 := family_of_mask h (by decide)
  have hk : fieldKK w = 161#8 := fieldKK_of_mask h (by decide)
  simp [decode, decodeWith, hf, decodeFamilyE, hk]

theorem decode_ldVxDt {w : Word} (h : w &&& 0xF0FF#16 = 0xF007#16) :
    decode w = .ok (.ldVxDt (fieldX w)) := by
  have hf : fieldFamily w = 15 := family_of_mask h (by decide)
  have hk : fieldKK w = 7#8 := fieldKK_of_mask h (by decide)
  simp [decode, decodeWith, hf, decodeFamilyF, hk]

theorem decode_ldVxK {w : Word} (h : w &&& 0xF0FF#16 = 0xF00A#16) :
    decode w = .ok (.ldVxK (fieldX w)) := by
  have hf : fieldFamily w = 15 := family_of_mask h (by decide)
  have hk : fieldKK w = 10#8 := fieldKK_of_mask h (by decide)
  simp [decode, decodeWith, hf, decodeFamilyF, hk]

theorem decode_ldDtVx {w : Word} (h : w &&& 0xF0FF#16 = 0xF015#16) :
    decode w = .ok (.ldDtVx (fieldX w)) := by
  have hf : fieldFamily w = 15 := family_of_mask h (by decide)
  have hk : fieldKK w = 21#8 := fieldKK_of_mask h (by decide)
  simp [decode, decodeWith, hf, decodeFamilyF, hk]

theorem decode_ldStVx {w : Word} (h : w &&& 0xF0FF#16 = 0xF018#16) :
    decode w = .ok (.ldStVx (fieldX w)) := by
  have hf : fieldFamily w = 15 := family_of_mask h (by decide)
  have hk : fieldKK w = 24#8 := fieldKK_of_mask h (by decide)
  simp [decode, decodeWith, hf, decodeFamilyF, hk]

theorem decode_addIVx {w : Word} (h : w &&& 0xF0FF#16 = 0xF01E#16) :
    decode w = .ok (.addIVx (fieldX w)) := by
  have hf : fieldFamily w = 15 := family_of_mask h (by decide)
  have hk : fieldKK w = 30#8 := fieldKK_of_mask h (by decide)
  simp [decode, decodeWith, hf, decodeFamilyF, hk]

theorem decode_ldFVx {w : Word} (h : w &&& 0xF0FF#16 = 0xF029#16) :
    decode w = .ok (.ldFVx (fieldX w)) := by
  have hf : fieldFamily w = 15 := family_of_mask h (by decide)
  have hk : fieldKK w = 41#8 := fieldKK_of_mask h (by decide)
  simp [decode, decodeWith, hf, decodeFamilyF, hk]

theorem decode_ldBVx {w : Word} (h : w &&& 0xF0FF#16 = 0xF033#16) :
    decode w = .ok (.ldBVx (fieldX w)) := by
  have hf : fieldFamily w = 15 := family_of_mask h (by decide)
  have hk : fieldKK w = 51#8 := fieldKK_of_mask h (by decide)
  simp [decode, decodeWith, hf, decodeFamilyF, hk]

theorem decode_ldMemVx {w : Word} (h : w &&& 0xF0FF#16 = 0xF055#16) :
    decode w = .ok (.ldMemVx (fieldX w)) := by
  have hf : fieldFamily w = 15 := family_of_mask h (by decide)
  have hk : fieldKK w = 85#8 := fieldKK_of_mask h (by decide)
  simp [decode, decodeWith, hf, decodeFamilyF, hk]

theorem decode_ldVxMem {w : Word} (h : w &&& 0xF0FF#16 = 0xF065#16) :
    decode w = .ok (.ldVxMem (fieldX w)) := by
  have hf : fieldFamily w = 15 := family_of_mask h (by decide)
  have hk : fieldKK w = 101#8 := fieldKK_of_mask h (by decide)
  simp [decode, decodeWith, hf, decodeFamilyF, hk]

theorem decode_drw {w : Word} (h : w &&& 0xF000#16 = 0xD000#16) (hn : fieldN w ≠ 0#4) :
    decode w = .ok (.drw (fieldX w) (fieldY w) (fieldN w)) := by
  have hf : fieldFamily w = 13 := family_of_mask h (by decide)
  simp [decode, decodeWith, hf, hn]

/-! ## `decodeBytes` on the bytes of a word -/

theorem decodeBytes_high_low (w : Word) (rest : List Byte) :
    decodeBytes (highByte w :: lowByte w :: rest)
      = match decode w with | .ok i => .ok (i, rest) | .error e => .error e := by
  cases h : decode w <;> simp [decodeBytes, h]

end Sys2Proof
end

