-- ==== Sys2Proof/Laws/Draw.lean ====
section
/-! SUPPORT. What the draw engine does, said once: a draw inverts exactly the pixels its sprite covers, and
reports a collision exactly when it covers an on-pixel (R211 to R214). -/

namespace Sys2Proof.Machine

@[simp] theorem Display.pixel_clear (row : Fin 32) (col : Fin 64) : Display.clear.pixel row col = false := by
  simp [Display.clear, Display.pixel]

theorem Display.pixel_flip (d : Display) (row r : Fin 32) (col c : Fin 64) :
    (d.flip row col).pixel r c = (d.pixel r c ^^ decide (r = row ∧ c = col)) := by
  simp only [Display.flip, Display.pixel, Fin.getElem_fin, Vector.getElem_set]
  by_cases hr : row.val = r.val
  · have hr' : row = r := Fin.ext hr
    subst hr'
    by_cases hc : col.val = c.val
    · have hc' : col = c := Fin.ext hc
      subst hc'; simp
    · simp [hc, Fin.ext_iff, eq_comm]
  · simp [hr, Fin.ext_iff, eq_comm]

/-- Two displays with the same pixels are the same display. -/
theorem Display.ext_pixel {d e : Display} (h : ∀ row col, d.pixel row col = e.pixel row col) : d = e := by
  apply Vector.ext; intro i hi
  apply Vector.ext; intro j hj
  exact h ⟨i, hi⟩ ⟨j, hj⟩

/-- Fewer than 64 columns apart, two columns do not wrap onto each other. -/
theorem wrapCol_inj {a j k : Nat} (hj : j < 64) (hk : k < 64) (h : wrapCol (a + j) = wrapCol (a + k)) : j = k := by
  simp only [wrapCol, Fin.ofNat, Fin.mk.injEq] at h; omega

/-- Fewer than 32 rows apart, two rows do not wrap onto each other. -/
theorem wrapRow_inj {a j k : Nat} (hj : j < 32) (hk : k < 32) (h : wrapRow (a + j) = wrapRow (a + k)) : j = k := by
  simp only [wrapRow, Fin.ofNat, Fin.mk.injEq] at h; omega

/-- Inverting under `a`, then under `b`, when no pixel is under both. -/
theorem xor_xor_disjoint {p : Bool} {a b c : Prop} {_ : Decidable a} {_ : Decidable b} {_ : Decidable c}
    (hc : c ↔ a ∨ b) (hab : ¬ (a ∧ b)) : ((p ^^ decide a) ^^ decide b) = (p ^^ decide c) := by
  by_cases a <;> by_cases b <;> simp_all

/-- One row of a sprite: `n` pixels from pixel `c` on. -/
theorem drawRowFrom_spec (order : SpriteBitOrder) (b : Byte) (row : Fin 32) (x0 n c : Nat) (d : Display)
    (hit : Bool) (hn : c + n ≤ 64) :
    (∀ r col, (drawRowFrom order b row x0 n c (d, hit)).1.pixel r col
      = (d.pixel r col ^^ decide (∃ k < c + n, c ≤ k ∧ spriteBit order b k = true ∧ row = r ∧ wrapCol (x0 + k) = col)))
    ∧ ((drawRowFrom order b row x0 n c (d, hit)).2 = true ↔
      hit = true ∨ ∃ k < c + n, c ≤ k ∧ spriteBit order b k = true ∧ d.pixel row (wrapCol (x0 + k)) = true) := by
  induction n generalizing c d hit with
  | zero =>
    have none : ∀ k, ¬ (k < c + 0 ∧ c ≤ k) := by omega
    constructor
    · intro r col
      rw [decide_eq_false (by rintro ⟨k, h1, h2, _⟩; exact none k ⟨h1, h2⟩)]; simp [drawRowFrom]
    · constructor
      · exact Or.inl
      · rintro (h | ⟨k, h1, h2, _⟩)
        · exact h
        · exact absurd ⟨h1, h2⟩ (none k)
  | succ n ih =>
    rw [drawRowFrom]
    have split_first : ∀ (P : Nat → Prop), (∃ k < c + (n + 1), c ≤ k ∧ P k) ↔ P c ∨ ∃ k < c + 1 + n, c + 1 ≤ k ∧ P k := by
      intro P
      constructor
      · rintro ⟨k, h1, h2, hP⟩
        by_cases hk : k = c
        · subst hk; exact Or.inl hP
        · exact Or.inr ⟨k, by omega, by omega, hP⟩
      · rintro (hP | ⟨k, h1, h2, hP⟩)
        · exact ⟨c, by omega, Nat.le_refl _, hP⟩
        · exact ⟨k, by omega, by omega, hP⟩
    by_cases hb : spriteBit order b c = true
    · rw [if_pos hb]
      obtain ⟨ih1, ih2⟩ := ih (c + 1) (d.flip row (wrapCol (x0 + c)))
        (hit || d.pixel row (wrapCol (x0 + c))) (by omega)
      refine ⟨fun r col => ?_, ?_⟩
      · rw [ih1, Display.pixel_flip]
        apply xor_xor_disjoint
        · rw [split_first]
          constructor
          · rintro (⟨_, h1, h2⟩ | h)
            · exact Or.inl ⟨h1.symm, h2.symm⟩
            · exact Or.inr h
          · rintro (⟨h1, h2⟩ | h)
            · exact Or.inl ⟨hb, h1.symm, h2.symm⟩
            · exact Or.inr h
        · rintro ⟨⟨_, h1⟩, k, h2, h3, _, _, h4⟩
          have := wrapCol_inj (by omega) (by omega) (h1 ▸ h4)
          omega
      · rw [ih2, split_first, Bool.or_eq_true]
        have same : ∀ k, k < c + 1 + n → c + 1 ≤ k →
            (d.flip row (wrapCol (x0 + c))).pixel row (wrapCol (x0 + k)) = d.pixel row (wrapCol (x0 + k)) := by
          intro k h1 h2
          rw [Display.pixel_flip, decide_eq_false]
          · simp
          · rintro ⟨_, h⟩
            have := wrapCol_inj (by omega) (by omega) h
            omega
        constructor
        · rintro ((h | h) | ⟨k, h1, h2, h3, h4⟩)
          · exact Or.inl h
          · exact Or.inr (Or.inl ⟨hb, h⟩)
          · exact Or.inr (Or.inr ⟨k, h1, h2, h3, same k h1 h2 ▸ h4⟩)
        · rintro (h | ⟨_, h⟩ | ⟨k, h1, h2, h3, h4⟩)
          · exact Or.inl (Or.inl h)
          · exact Or.inl (Or.inr h)
          · exact Or.inr ⟨k, h1, h2, h3, (same k h1 h2).symm ▸ h4⟩
    · rw [if_neg hb]
      obtain ⟨ih1, ih2⟩ := ih (c + 1) d hit (by omega)
      refine ⟨fun r col => ?_, ?_⟩
      · rw [ih1]; congr 1
        rw [decide_eq_decide, split_first]
        exact ⟨Or.inr, fun h => h.resolve_left fun h => hb h.1⟩
      · rw [ih2, split_first]
        exact or_congr_right ⟨Or.inr, fun h => h.resolve_left fun h => hb h.1⟩

open Classical in
/-- Rows `r` on of a sprite. -/
theorem drawRowsFrom_spec (order : SpriteBitOrder) (x0 y0 : Nat) (sprite : List Byte) (r : Nat) (d : Display)
    (hit : Bool) (hr : r + sprite.length ≤ 32) :
    (∀ row col, (drawRowsFrom order x0 y0 sprite r (d, hit)).1.pixel row col
      = (d.pixel row col ^^ decide (∃ k < sprite.length, ∃ c < 8, spriteBit order (sprite.getD k 0) c = true ∧
          wrapRow (y0 + (r + k)) = row ∧ wrapCol (x0 + c) = col)))
    ∧ ((drawRowsFrom order x0 y0 sprite r (d, hit)).2 = true ↔
      hit = true ∨ ∃ k < sprite.length, ∃ c < 8, spriteBit order (sprite.getD k 0) c = true ∧
        d.pixel (wrapRow (y0 + (r + k))) (wrapCol (x0 + c)) = true) := by
  induction sprite generalizing r d hit with
  | nil => simp [drawRowsFrom]
  | cons b bs ih =>
    rw [List.length_cons] at hr
    rw [drawRowsFrom]
    obtain ⟨row1, row2⟩ := drawRowFrom_spec order b (wrapRow (y0 + r)) x0 8 0 d hit (by omega)
    obtain ⟨rest1, rest2⟩ := ih (r + 1) (drawRowFrom order b (wrapRow (y0 + r)) x0 8 0 (d, hit)).1
      (drawRowFrom order b (wrapRow (y0 + r)) x0 8 0 (d, hit)).2 (by omega)
    have split_first : ∀ (P : Nat → Byte → Prop), (∃ k < (b :: bs).length, P k ((b :: bs).getD k 0)) ↔
        P 0 b ∨ ∃ k < bs.length, P (k + 1) (bs.getD k 0) := by
      intro P
      constructor
      · rintro ⟨k, h, hP⟩
        cases k with
        | zero => exact Or.inl hP
        | succ k => exact Or.inr ⟨k, by simpa using h, hP⟩
      · rintro (hP | ⟨k, h, hP⟩)
        · exact ⟨0, by simp, hP⟩
        · exact ⟨k + 1, by simpa using h, hP⟩
    refine ⟨fun row col => ?_, ?_⟩
    · rw [rest1, row1]
      apply xor_xor_disjoint
      · rw [split_first fun k b => ∃ c < 8, spriteBit order b c = true ∧ wrapRow (y0 + (r + k)) = row ∧
          wrapCol (x0 + c) = col]
        simp [Nat.add_right_comm, Nat.add_assoc]
      · rintro ⟨⟨_, _, _, _, h1, _⟩, k, h2, _, _, _, h3, _⟩
        have := wrapRow_inj (a := y0) (j := r) (k := r + 1 + k) (by omega) (by omega) (h1.trans h3.symm)
        omega
    · rw [rest2, row2]
      rw [split_first fun k b => ∃ c < 8, spriteBit order b c = true ∧
        d.pixel (wrapRow (y0 + (r + k))) (wrapCol (x0 + c)) = true]
      have same : ∀ k < bs.length, ∀ c, (drawRowFrom order b (wrapRow (y0 + r)) x0 8 0 (d, hit)).1.pixel
          (wrapRow (y0 + (r + 1 + k))) (wrapCol (x0 + c)) = d.pixel (wrapRow (y0 + (r + 1 + k))) (wrapCol (x0 + c)) := by
        intro k hk c
        rw [row1, decide_eq_false]
        · simp
        · rintro ⟨_, _, _, _, h, _⟩
          have := wrapRow_inj (a := y0) (j := r) (k := r + 1 + k) (by omega) (by omega) h
          omega
      rw [or_assoc]
      apply or_congr_right
      apply or_congr
      · simp
      · constructor
        · rintro ⟨k, hk, c, hc, h1, h2⟩
          refine ⟨k, hk, c, hc, h1, ?_⟩
          rw [same k hk] at h2
          rw [show r + (k + 1) = r + 1 + k by omega]; exact h2
        · rintro ⟨k, hk, c, hc, h1, h2⟩
          refine ⟨k, hk, c, hc, h1, ?_⟩
          rw [same k hk]
          rw [show r + (k + 1) = r + 1 + k by omega] at h2; exact h2

theorem spriteCovers_iff (order : SpriteBitOrder) (x y : Nat) (sprite : List Byte) (row : Fin 32) (col : Fin 64) :
    spriteCovers order x y sprite row col = true ↔
      ∃ r < sprite.length, ∃ c < 8, spriteBit order (sprite.getD r 0) c = true ∧
        wrapRow (y % dispHeight + r) = row ∧ wrapCol (x % dispWidth + c) = col := by
  simp [spriteCovers, and_assoc]

/-- A draw inverts exactly the pixels its sprite covers (R212, R214). -/
theorem drawSprite_pixel (order : SpriteBitOrder) (x y : Nat) (sprite : List Byte) (d : Display)
    (h : sprite.length ≤ 32) (row : Fin 32) (col : Fin 64) :
    (drawSprite order x y sprite d).1.pixel row col
      = (d.pixel row col ^^ spriteCovers order x y sprite row col) := by
  have := (drawRowsFrom_spec order (x % dispWidth) (y % dispHeight) sprite 0 d false (by omega)).1 row col
  rw [drawSprite, this]
  congr 1
  rw [Bool.eq_iff_iff, spriteCovers_iff]
  simp

/-- A draw reports a collision exactly when its sprite covers a pixel that was on (R211, R214). -/
theorem drawSprite_collision (order : SpriteBitOrder) (x y : Nat) (sprite : List Byte) (d : Display)
    (h : sprite.length ≤ 32) :
    (drawSprite order x y sprite d).2 = true ↔
      ∃ row col, spriteCovers order x y sprite row col = true ∧ d.pixel row col = true := by
  have := (drawRowsFrom_spec order (x % dispWidth) (y % dispHeight) sprite 0 d false (by omega)).2
  rw [drawSprite, this]
  simp only [spriteCovers_iff]
  constructor
  · rintro (h | ⟨k, hk, c, hc, h1, h2⟩)
    · cases h
    · exact ⟨_, _, ⟨k, hk, c, hc, h1, rfl, rfl⟩, by simpa using h2⟩
  · rintro ⟨row, col, ⟨k, hk, c, hc, h1, rfl, rfl⟩, h2⟩
    exact Or.inr ⟨k, hk, c, hc, h1, by simpa using h2⟩

end Sys2Proof.Machine
end

