-- ==== Sys2Proof/Laws/Memory.lean ====
section
/-! SUPPORT. The laws of memory: a byte read after a write, the canonical form, runs of bytes, the checks. -/

namespace Sys2Proof.Machine

/-! ## One byte -/

theorem Memory.listed_cons (c : Nat) (x : Byte) (m : Memory) (a : Nat) :
    Memory.listed ((c, x) :: m) a = if c = a then some x else Memory.listed m a := rfl

theorem Memory.read_nil (a : Nat) : Memory.read [] a = unlistedByte a := rfl

theorem Memory.read_cons (c : Nat) (x : Byte) (m : Memory) (a : Nat) :
    Memory.read ((c, x) :: m) a = if c = a then x else Memory.read m a := by
  unfold Memory.read; rw [Memory.listed_cons]; split <;> rfl

/-- From a canonical list that starts above `a`, `a` reads as unlisted. -/
theorem Memory.read_of_wfFrom {m : Memory} {lo a : Nat} (h : Memory.wfFrom lo m = true) (ha : a < lo) :
    m.read a = unlistedByte a := by
  induction m generalizing lo with
  | nil => rfl
  | cons cell m ih =>
    obtain ⟨c, x⟩ := cell
    simp only [Memory.wfFrom, Bool.and_eq_true, decide_eq_true_eq] at h
    rw [Memory.read_cons, if_neg (by omega)]
    exact ih h.2 (by omega)

/-- An insertion changes the byte at its address and no other. -/
theorem Memory.read_insert {m : Memory} {lo : Nat} (h : Memory.wfFrom lo m = true) (a a' : Nat) (b : Byte) :
    (m.insert a b).read a' = if a' = a then b else m.read a' := by
  induction m generalizing lo with
  | nil =>
    unfold Memory.insert
    by_cases hb : b = unlistedByte a
    · rw [if_pos hb]; split
      · rename_i e; rw [e, hb]; rfl
      · rfl
    · rw [if_neg hb, Memory.read_cons]
      simp only [eq_comm]
  | cons cell m ih =>
    obtain ⟨c, x⟩ := cell
    simp only [Memory.wfFrom, Bool.and_eq_true, decide_eq_true_eq] at h
    have tail : ∀ k, k ≤ c → Memory.read m k = unlistedByte k := fun k hk =>
      Memory.read_of_wfFrom h.2 (by omega)
    simp only [Memory.insert]
    by_cases h1 : a < c
    · rw [if_pos h1]
      by_cases hb : b = unlistedByte a
      · rw [if_pos hb]; split
        · rename_i e; subst e
          rw [Memory.read_cons, if_neg (by omega), tail _ (by omega), hb]
        · rfl
      · rw [if_neg hb, Memory.read_cons]
        simp only [eq_comm]
    · rw [if_neg h1]
      by_cases h2 : a = c
      · subst h2
        rw [if_pos rfl]
        by_cases hb : b = unlistedByte a
        · rw [if_pos hb, Memory.read_cons]; split
          · rename_i e; rw [e, tail _ (Nat.le_refl _), hb]
          · rw [if_neg (by omega)]
        · rw [if_neg hb, Memory.read_cons, Memory.read_cons]
          by_cases e : a = a'
          · rw [if_pos e, if_pos e.symm]
          · rw [if_neg e, if_neg (Ne.symm e), if_neg e]
      · rw [if_neg h2, Memory.read_cons, Memory.read_cons, ih h.2]
        by_cases e : c = a'
        · rw [if_pos e, if_neg (by omega), if_pos e]
        · rw [if_neg e, if_neg e]

/-- A list that starts at `k` or above starts at any `j` below `k` or above. -/
theorem Memory.wfFrom_weaken {m : Memory} {k j : Nat} (h : Memory.wfFrom k m = true) (hj : j ≤ k) :
    Memory.wfFrom j m = true := by
  cases m with
  | nil => rfl
  | cons cell m =>
    simp only [Memory.wfFrom, Bool.and_eq_true, decide_eq_true_eq] at h ⊢
    exact ⟨⟨⟨by omega, h.1.1.2⟩, h.1.2⟩, h.2⟩

/-- An insertion at an existing address keeps the canonical form. -/
theorem Memory.wfFrom_insert {m : Memory} {lo : Nat} (h : Memory.wfFrom lo m = true) {a : Nat} (hlo : lo ≤ a)
    (ha : a < memSize) (b : Byte) : Memory.wfFrom lo (m.insert a b) = true := by
  induction m generalizing lo with
  | nil =>
    unfold Memory.insert
    split
    · rfl
    · simp_all [Memory.wfFrom]
  | cons cell m ih =>
    obtain ⟨c, x⟩ := cell
    simp only [Memory.wfFrom, Bool.and_eq_true, decide_eq_true_eq] at h
    obtain ⟨⟨⟨h1, h2⟩, h3⟩, h4⟩ := h
    simp only [Memory.insert]
    split
    · split
      · simp only [Memory.wfFrom, Bool.and_eq_true, decide_eq_true_eq]
        exact ⟨⟨⟨h1, h2⟩, h3⟩, h4⟩
      · rename_i hac hb
        simp only [Memory.wfFrom, Bool.and_eq_true, decide_eq_true_eq]
        exact ⟨⟨⟨hlo, ha⟩, hb⟩, ⟨⟨⟨by omega, h2⟩, h3⟩, h4⟩⟩
    · split
      · rename_i _ e; subst e
        split
        · exact Memory.wfFrom_weaken h4 (by omega)
        · rename_i hb
          simp only [Memory.wfFrom, Bool.and_eq_true, decide_eq_true_eq]
          exact ⟨⟨⟨h1, h2⟩, hb⟩, h4⟩
      · simp only [Memory.wfFrom, Bool.and_eq_true, decide_eq_true_eq]
        exact ⟨⟨⟨h1, h2⟩, h3⟩, ih h4 (by omega)⟩

theorem Memory.wf_write {m : Memory} (h : m.wf = true) (a : Nat) (b : Byte) : (m.write a b).wf = true := by
  unfold Memory.write
  split
  · exact Memory.wfFrom_insert h (Nat.zero_le _) ‹_› b
  · exact h

/-- A byte reads back as written, and every other byte reads as before. -/
theorem Memory.read_write {m : Memory} (h : m.wf = true) {a : Nat} (ha : a < memSize) (a' : Nat) (b : Byte) :
    (m.write a b).read a' = if a' = a then b else m.read a' := by
  unfold Memory.write; rw [if_pos ha]; exact Memory.read_insert h a a' b

/-- A write elsewhere leaves a byte alone, whatever the address written. -/
theorem Memory.read_write_ne {m : Memory} (h : m.wf = true) {a a' : Nat} (ne : a' ≠ a) (b : Byte) :
    (m.write a b).read a' = m.read a' := by
  unfold Memory.write; split
  · rw [Memory.read_insert h, if_neg ne]
  · rfl

/-! ## Runs of bytes -/

theorem Memory.wf_writeBytes (bs : List Byte) {m : Memory} (h : m.wf = true) (a : Nat) :
    (m.writeBytes a bs).wf = true := by
  induction bs generalizing m a with
  | nil => exact h
  | cons b bs ih => exact ih (Memory.wf_write h a b) (a + 1)

/-- After a run is written, a byte inside it reads as given, and a byte outside it as before. -/
theorem Memory.read_writeBytes (bs : List Byte) {m : Memory} (h : m.wf = true) {a : Nat}
    (ha : a + bs.length ≤ memSize) (a' : Nat) :
    (m.writeBytes a bs).read a' = if a ≤ a' then (bs[a' - a]?).getD (m.read a') else m.read a' := by
  induction bs generalizing m a with
  | nil => simp [Memory.writeBytes]
  | cons b bs ih =>
    rw [List.length_cons] at ha
    rw [Memory.writeBytes, ih (Memory.wf_write h a b) (by omega), Memory.read_write h (by omega)]
    rcases Nat.lt_trichotomy a' a with c | c | c
    · rw [if_neg (by omega), if_neg (by omega), if_neg (by omega)]
    · subst c; simp
    · rw [if_pos (by omega), if_neg (by omega), if_pos (by omega), show a' - a = (a' - (a + 1)) + 1 by omega,
        List.getElem?_cons_succ]

/-- Under FONT_WRITE_POLICY = fault the stores of an instruction are plain stores. -/
theorem Memory.storeBytes_fault (bs : List Byte) (m : Memory) (a : Nat) :
    m.storeBytes .fault a bs = m.writeBytes a bs := by
  induction bs generalizing m a with
  | nil => rfl
  | cons b bs ih =>
    rw [Memory.storeBytes, Memory.writeBytes, ih, if_neg (by simp)]

/-- Under FONT_WRITE_POLICY = ignore the bytes of a run for the reserved region are dropped (D5) and the others stored. -/
theorem Memory.read_storeBytes_ignore (bs : List Byte) {m : Memory} (h : m.wf = true) {a : Nat}
    (ha : a + bs.length ≤ memSize) (a' : Nat) :
    (m.storeBytes .ignore a bs).read a'
      = if progBase ≤ a' ∧ a ≤ a' then (bs[a' - a]?).getD (m.read a') else m.read a' := by
  induction bs generalizing m a with
  | nil => simp [Memory.storeBytes]
  | cons b bs ih =>
    rw [List.length_cons] at ha
    rw [Memory.storeBytes]
    have step : a' ≠ a → a ≤ a' → a' - a = (a' - (a + 1)) + 1 := by omega
    by_cases low : a < progBase
    · rw [if_pos ⟨low, rfl⟩, ih h (by omega)]
      by_cases c : progBase ≤ a' ∧ a ≤ a'
      · rw [if_pos c, if_pos (by omega), step (by omega) c.2, List.getElem?_cons_succ]
      · rw [if_neg c, if_neg (by omega)]
    · rw [if_neg (by simp [low]), ih (Memory.wf_write h a b) (by omega), Memory.read_write h (by omega)]
      rcases Nat.lt_trichotomy a' a with c | c | c
      · rw [if_neg (by omega), if_neg (by omega), if_neg (by omega)]
      · subst c; rw [if_neg (by omega), if_pos rfl, if_pos (by omega)]; simp
      · rw [if_pos (by omega), if_neg (by omega), if_pos (by omega), step (by omega) (by omega), List.getElem?_cons_succ]

theorem Memory.wf_storeBytes (policy : FontWritePolicy) (bs : List Byte) {m : Memory} (h : m.wf = true) (a : Nat) :
    (m.storeBytes policy a bs).wf = true := by
  induction bs generalizing m a with
  | nil => exact h
  | cons b bs ih =>
    rw [Memory.storeBytes]
    split
    · exact ih h _
    · exact ih (Memory.wf_write h a b) _

@[simp] theorem Memory.length_readBytes (m : Memory) (a n : Nat) : (m.readBytes a n).length = n := by
  simp [Memory.readBytes]

@[simp] theorem Memory.getElem_readBytes (m : Memory) (a n k : Nat) (h : k < (m.readBytes a n).length) :
    (m.readBytes a n)[k] = m.read (a + k) := by
  simp [Memory.readBytes]

theorem Memory.getElem?_readBytes (m : Memory) (a n k : Nat) :
    (m.readBytes a n)[k]? = if k < n then some (m.read (a + k)) else none := by
  by_cases h : k < n <;> simp [Memory.readBytes, h]

/-! ## The memory that new() makes (R291) -/

theorem wfFrom_constructedFrom (p : Params) (n a : Nat) (h : a + n ≤ memSize) :
    Memory.wfFrom a (constructedFrom p a n) = true := by
  induction n generalizing a with
  | zero => rfl
  | succ n ih =>
    have tail := ih (a + 1) (by omega)
    rw [constructedFrom]
    split
    · exact Memory.wfFrom_weaken tail (Nat.le_succ a)
    · simp only [Memory.wfFrom, Bool.and_eq_true, decide_eq_true_eq]
      exact ⟨⟨⟨Nat.le_refl a, by omega⟩, ‹_›⟩, tail⟩

theorem read_constructedFrom (p : Params) (n a a' : Nat) :
    (constructedFrom p a n).read a' = if a ≤ a' ∧ a' < a + n then constructedByte p a' else unlistedByte a' := by
  induction n generalizing a with
  | zero => rw [if_neg (by omega)]; rfl
  | succ n ih =>
    rw [constructedFrom]
    by_cases e : a' = a
    · subst e
      have here : a' ≤ a' ∧ a' < a' + (n + 1) := by omega
      simp only [here, and_self, if_true]
      split
      · rename_i same; rw [ih, if_neg (by omega), same]
      · rw [Memory.read_cons, if_pos rfl]
    · have inside : (a + 1 ≤ a' ∧ a' < a + 1 + n) = (a ≤ a' ∧ a' < a + (n + 1)) := by
        apply propext; omega
      split
      · rw [ih]; simp only [inside]
      · rw [Memory.read_cons, if_neg (Ne.symm e), ih]; simp only [inside]

theorem wf_constructedMemory (p : Params) : (constructedMemory p).wf = true :=
  wfFrom_constructedFrom p memSize 0 (Nat.le_refl _)

/-- Every byte that exists after `new()` is as `constructedByte` says. -/
theorem read_constructedMemory (p : Params) {a : Nat} (ha : a < memSize) :
    (constructedMemory p).read a = constructedByte p a := by
  rw [constructedMemory, read_constructedFrom, if_pos (by omega)]

/-- At the defaults no cell is listed. -/
theorem constructedMemory_params : constructedMemory params = [] := by
  have none : ∀ n a, constructedFrom params a n = [] := fun n => by
    induction n with
    | zero => intro a; rfl
    | succ n ih => intro a; rw [constructedFrom]; exact (if_pos rfl).trans (ih (a + 1))
  exact none memSize 0

/-- Byte b of glyph d (R63). -/
theorem constructedByte_font (p : Params) (d : Fin 16) (b : Fin 5) :
    constructedByte p (p.fontBase + 5 * d.val + b.val) = p.fontTable[d][b] := by
  have hd : (p.fontBase + 5 * d.val + b.val - p.fontBase) / 5 = d.val := by omega
  have hb : (p.fontBase + 5 * d.val + b.val - p.fontBase) % 5 = b.val := by omega
  rw [constructedByte, dif_pos (by omega)]
  simp only [hd, hb]; rfl

/-- The rest of the reserved region (R65). -/
theorem constructedByte_fill {p : Params} {a : Nat} (ha : a < progBase) (h : a < p.fontBase ∨ p.fontBase + 80 ≤ a) :
    constructedByte p a = p.reservedFill := by
  rw [constructedByte, dif_neg (by omega), if_pos ha]

/-- The program region (R33). -/
theorem constructedByte_program {p : Params} (fits : p.fontFits) {a : Nat} (ha : progBase ≤ a) :
    constructedByte p a = 0#8 := by
  rw [constructedByte, dif_neg (by omega), if_neg (by omega)]; rfl

/-! ## The checks -/

/-- No address of the range offends. -/
theorem firstFault_eq_none {check : Nat → Option Fault} {base n : Nat} :
    firstFault check base n = none ↔ ∀ k < n, check (base + k) = none := by
  simp [firstFault]

/-- The reported error is that of the lowest offending address (R191, R258). -/
theorem firstFault_eq_some {check : Nat → Option Fault} {base n : Nat} {e : Fault} :
    firstFault check base n = some e ↔
      ∃ k < n, check (base + k) = some e ∧ ∀ j < k, check (base + j) = none := by
  induction n with
  | zero => simp [firstFault]
  | succ n ih =>
    have hstep : firstFault check base (n + 1)
        = (firstFault check base n).or (check (base + n)) := by
      simp [firstFault, List.range_succ, List.findSome?_append]
    rw [hstep]
    constructor
    · intro h
      cases h' : firstFault check base n with
      | some e' =>
        rw [h'] at h; simp at h; subst h
        obtain ⟨k, hk, h1, h2⟩ := ih.1 h'
        exact ⟨k, by omega, h1, h2⟩
      | none =>
        rw [h'] at h; simp at h
        exact ⟨n, by omega, h, firstFault_eq_none.1 h'⟩
    · rintro ⟨k, hk, h1, h2⟩
      by_cases hkn : k = n
      · subst hkn
        rw [firstFault_eq_none.2 h2]; simpa using h1
      · rw [ih.2 ⟨k, by omega, h1, h2⟩]; rfl

/-- The read check over a range passes exactly when its last address exists (R66). -/
theorem firstFault_readFault_none {base n : Nat} (hn : 0 < n) :
    firstFault readFault base n = none ↔ base + n ≤ memSize := by
  rw [firstFault_eq_none]
  constructor
  · intro h
    have := h (n - 1) (by omega)
    unfold readFault at this
    split at this
    · cases this
    · simp only [memSize]; omega
  · intro h k hk
    unfold readFault; rw [if_neg (by simp only [memSize] at h; omega)]

/-- The write check over a range passes exactly when it lies in 0x200-0xFFF (R67). -/
theorem firstFault_writeFault_none {base n : Nat} (hn : 0 < n) :
    firstFault (writeFault .fault) base n = none ↔ progBase ≤ base ∧ base + n ≤ memSize := by
  rw [firstFault_eq_none]
  constructor
  · intro h
    have h0 := h 0 hn
    have hl := h (n - 1) (by omega)
    unfold writeFault at h0 hl
    split at h0
    · cases h0
    · split at h0
      · cases h0
      · rename_i inRegion
        have lower : ¬ base < progBase := fun hb => inRegion ⟨hb, rfl⟩
        split at hl
        · cases hl
        · simp only [memSize, progBase] at *
          omega
  · rintro ⟨h1, h2⟩ k hk
    unfold writeFault
    rw [if_neg (by simp only [memSize] at h2; omega), if_neg (by omega)]

end Sys2Proof.Machine
end

