-- ==== Sys2Proof/Laws/State.lean ====
section
/-! SUPPORT. One lemma for each field under each update of the state, so that no later proof unfolds a record
update; and what a register reads after a register is written. -/

namespace Sys2Proof.Machine

/-! ## `setReg` -/

@[simp] theorem State.setReg_mem (s : State) (x : Reg) (b : Byte) : (s.setReg x b).mem = s.mem := rfl
@[simp] theorem State.setReg_V (s : State) (x : Reg) (b : Byte) : (s.setReg x b).V = s.V.set x b := rfl
@[simp] theorem State.setReg_I (s : State) (x : Reg) (b : Byte) : (s.setReg x b).I = s.I := rfl
@[simp] theorem State.setReg_PC (s : State) (x : Reg) (b : Byte) : (s.setReg x b).PC = s.PC := rfl
@[simp] theorem State.setReg_stack (s : State) (x : Reg) (b : Byte) : (s.setReg x b).stack = s.stack := rfl
@[simp] theorem State.setReg_DT (s : State) (x : Reg) (b : Byte) : (s.setReg x b).DT = s.DT := rfl
@[simp] theorem State.setReg_ST (s : State) (x : Reg) (b : Byte) : (s.setReg x b).ST = s.ST := rfl
@[simp] theorem State.setReg_disp (s : State) (x : Reg) (b : Byte) : (s.setReg x b).disp = s.disp := rfl
@[simp] theorem State.setReg_keys (s : State) (x : Reg) (b : Byte) : (s.setReg x b).keys = s.keys := rfl
@[simp] theorem State.setReg_draws (s : State) (x : Reg) (b : Byte) : (s.setReg x b).draws = s.draws := rfl

/-! ## `setI` -/

@[simp] theorem State.setI_mem (s : State) (w : Word) : (s.setI w).mem = s.mem := rfl
@[simp] theorem State.setI_V (s : State) (w : Word) : (s.setI w).V = s.V := rfl
@[simp] theorem State.setI_I (s : State) (w : Word) : (s.setI w).I = w := rfl
@[simp] theorem State.setI_PC (s : State) (w : Word) : (s.setI w).PC = s.PC := rfl
@[simp] theorem State.setI_stack (s : State) (w : Word) : (s.setI w).stack = s.stack := rfl
@[simp] theorem State.setI_DT (s : State) (w : Word) : (s.setI w).DT = s.DT := rfl
@[simp] theorem State.setI_ST (s : State) (w : Word) : (s.setI w).ST = s.ST := rfl
@[simp] theorem State.setI_disp (s : State) (w : Word) : (s.setI w).disp = s.disp := rfl
@[simp] theorem State.setI_keys (s : State) (w : Word) : (s.setI w).keys = s.keys := rfl
@[simp] theorem State.setI_draws (s : State) (w : Word) : (s.setI w).draws = s.draws := rfl

/-! ## `jump` -/

@[simp] theorem State.jump_mem (s : State) (w : Word) : (s.jump w).mem = s.mem := rfl
@[simp] theorem State.jump_V (s : State) (w : Word) : (s.jump w).V = s.V := rfl
@[simp] theorem State.jump_I (s : State) (w : Word) : (s.jump w).I = s.I := rfl
@[simp] theorem State.jump_PC (s : State) (w : Word) : (s.jump w).PC = w := rfl
@[simp] theorem State.jump_stack (s : State) (w : Word) : (s.jump w).stack = s.stack := rfl
@[simp] theorem State.jump_DT (s : State) (w : Word) : (s.jump w).DT = s.DT := rfl
@[simp] theorem State.jump_ST (s : State) (w : Word) : (s.jump w).ST = s.ST := rfl
@[simp] theorem State.jump_disp (s : State) (w : Word) : (s.jump w).disp = s.disp := rfl
@[simp] theorem State.jump_keys (s : State) (w : Word) : (s.jump w).keys = s.keys := rfl
@[simp] theorem State.jump_draws (s : State) (w : Word) : (s.jump w).draws = s.draws := rfl

/-! ## `advance` -/

@[simp] theorem State.advance_mem (s : State) : s.advance.mem = s.mem := rfl
@[simp] theorem State.advance_V (s : State) : s.advance.V = s.V := rfl
@[simp] theorem State.advance_I (s : State) : s.advance.I = s.I := rfl
@[simp] theorem State.advance_PC (s : State) : s.advance.PC = u16 (s.PC.toNat + 2) := rfl
@[simp] theorem State.advance_stack (s : State) : s.advance.stack = s.stack := rfl
@[simp] theorem State.advance_DT (s : State) : s.advance.DT = s.DT := rfl
@[simp] theorem State.advance_ST (s : State) : s.advance.ST = s.ST := rfl
@[simp] theorem State.advance_disp (s : State) : s.advance.disp = s.disp := rfl
@[simp] theorem State.advance_keys (s : State) : s.advance.keys = s.keys := rfl
@[simp] theorem State.advance_draws (s : State) : s.advance.draws = s.draws := rfl

/-! ## `nextDraw` -/

@[simp] theorem State.nextDraw_mem (s : State) : s.nextDraw.mem = s.mem := rfl
@[simp] theorem State.nextDraw_V (s : State) : s.nextDraw.V = s.V := rfl
@[simp] theorem State.nextDraw_I (s : State) : s.nextDraw.I = s.I := rfl
@[simp] theorem State.nextDraw_PC (s : State) : s.nextDraw.PC = s.PC := rfl
@[simp] theorem State.nextDraw_stack (s : State) : s.nextDraw.stack = s.stack := rfl
@[simp] theorem State.nextDraw_DT (s : State) : s.nextDraw.DT = s.DT := rfl
@[simp] theorem State.nextDraw_ST (s : State) : s.nextDraw.ST = s.ST := rfl
@[simp] theorem State.nextDraw_disp (s : State) : s.nextDraw.disp = s.disp := rfl
@[simp] theorem State.nextDraw_keys (s : State) : s.nextDraw.keys = s.keys := rfl
@[simp] theorem State.nextDraw_draws (s : State) : s.nextDraw.draws = s.draws + 1 := rfl

/-! ## `setFlag` -/

@[simp] theorem State.setFlag_mem (s : State) (f : Bool) : (s.setFlag f).mem = s.mem := rfl
@[simp] theorem State.setFlag_V (s : State) (f : Bool) : (s.setFlag f).V = s.V.set VF (flagByte f) := rfl
@[simp] theorem State.setFlag_I (s : State) (f : Bool) : (s.setFlag f).I = s.I := rfl
@[simp] theorem State.setFlag_PC (s : State) (f : Bool) : (s.setFlag f).PC = s.PC := rfl
@[simp] theorem State.setFlag_stack (s : State) (f : Bool) : (s.setFlag f).stack = s.stack := rfl
@[simp] theorem State.setFlag_DT (s : State) (f : Bool) : (s.setFlag f).DT = s.DT := rfl
@[simp] theorem State.setFlag_ST (s : State) (f : Bool) : (s.setFlag f).ST = s.ST := rfl
@[simp] theorem State.setFlag_disp (s : State) (f : Bool) : (s.setFlag f).disp = s.disp := rfl
@[simp] theorem State.setFlag_keys (s : State) (f : Bool) : (s.setFlag f).keys = s.keys := rfl
@[simp] theorem State.setFlag_draws (s : State) (f : Bool) : (s.setFlag f).draws = s.draws := rfl

/-! ## `resultAndFlag` -/

@[simp] theorem State.resultAndFlag_mem (s : State) (x : Reg) (b : Byte) (f : Bool) : (s.resultAndFlag x b f).mem = s.mem := rfl
@[simp] theorem State.resultAndFlag_V (s : State) (x : Reg) (b : Byte) (f : Bool) : (s.resultAndFlag x b f).V = (s.V.set x b).set VF (flagByte f) := rfl
@[simp] theorem State.resultAndFlag_I (s : State) (x : Reg) (b : Byte) (f : Bool) : (s.resultAndFlag x b f).I = s.I := rfl
@[simp] theorem State.resultAndFlag_PC (s : State) (x : Reg) (b : Byte) (f : Bool) : (s.resultAndFlag x b f).PC = u16 (s.PC.toNat + 2) := rfl
@[simp] theorem State.resultAndFlag_stack (s : State) (x : Reg) (b : Byte) (f : Bool) : (s.resultAndFlag x b f).stack = s.stack := rfl
@[simp] theorem State.resultAndFlag_DT (s : State) (x : Reg) (b : Byte) (f : Bool) : (s.resultAndFlag x b f).DT = s.DT := rfl
@[simp] theorem State.resultAndFlag_ST (s : State) (x : Reg) (b : Byte) (f : Bool) : (s.resultAndFlag x b f).ST = s.ST := rfl
@[simp] theorem State.resultAndFlag_disp (s : State) (x : Reg) (b : Byte) (f : Bool) : (s.resultAndFlag x b f).disp = s.disp := rfl
@[simp] theorem State.resultAndFlag_keys (s : State) (x : Reg) (b : Byte) (f : Bool) : (s.resultAndFlag x b f).keys = s.keys := rfl
@[simp] theorem State.resultAndFlag_draws (s : State) (x : Reg) (b : Byte) (f : Bool) : (s.resultAndFlag x b f).draws = s.draws := rfl

/-! ## `skipIf` -/

@[simp] theorem State.skipIf_mem (s : State) (c : Bool) : (s.skipIf c).mem = s.mem := by cases c <;> rfl
@[simp] theorem State.skipIf_V (s : State) (c : Bool) : (s.skipIf c).V = s.V := by cases c <;> rfl
@[simp] theorem State.skipIf_I (s : State) (c : Bool) : (s.skipIf c).I = s.I := by cases c <;> rfl
@[simp] theorem State.skipIf_PC (s : State) (c : Bool) :
    (s.skipIf c).PC = if c then u16 (s.PC.toNat + 4) else u16 (s.PC.toNat + 2) := by
  cases c <;> rfl
@[simp] theorem State.skipIf_stack (s : State) (c : Bool) : (s.skipIf c).stack = s.stack := by cases c <;> rfl
@[simp] theorem State.skipIf_DT (s : State) (c : Bool) : (s.skipIf c).DT = s.DT := by cases c <;> rfl
@[simp] theorem State.skipIf_ST (s : State) (c : Bool) : (s.skipIf c).ST = s.ST := by cases c <;> rfl
@[simp] theorem State.skipIf_disp (s : State) (c : Bool) : (s.skipIf c).disp = s.disp := by cases c <;> rfl
@[simp] theorem State.skipIf_keys (s : State) (c : Bool) : (s.skipIf c).keys = s.keys := by cases c <;> rfl
@[simp] theorem State.skipIf_draws (s : State) (c : Bool) : (s.skipIf c).draws = s.draws := by cases c <;> rfl

/-! ## Registers -/

theorem State.reg_def (s : State) (x : Reg) : s.reg x = s.V[x.val] := rfl

/-- Two states with the same register file read the same registers. -/
theorem State.reg_congr {s t : State} (h : s.V = t.V) (x : Reg) : s.reg x = t.reg x := by
  simp [State.reg, h]

@[simp] theorem State.reg_setReg (s : State) (x y : Reg) (b : Byte) :
    (s.setReg x b).reg y = if x = y then b else s.reg y := by
  simp [State.reg_def, Vector.getElem_set, Fin.ext_iff]

@[simp] theorem State.reg_setFlag (s : State) (f : Bool) (y : Reg) :
    (s.setFlag f).reg y = if VF = y then flagByte f else s.reg y := by
  simp [State.setFlag]

@[simp] theorem State.reg_resultAndFlag (s : State) (x y : Reg) (b : Byte) (f : Bool) :
    (s.resultAndFlag x b f).reg y = if VF = y then flagByte f else if x = y then b else s.reg y := by
  change ((s.setReg x b).setFlag f).reg y = _
  simp

@[simp] theorem State.reg_setI (s : State) (w : Word) (y : Reg) : (s.setI w).reg y = s.reg y := rfl
@[simp] theorem State.reg_jump (s : State) (w : Word) (y : Reg) : (s.jump w).reg y = s.reg y := rfl
@[simp] theorem State.reg_advance (s : State) (y : Reg) : s.advance.reg y = s.reg y := rfl
@[simp] theorem State.reg_nextDraw (s : State) (y : Reg) : s.nextDraw.reg y = s.reg y := rfl
@[simp] theorem State.reg_skipIf (s : State) (c : Bool) (y : Reg) : (s.skipIf c).reg y = s.reg y := by
  cases c <;> rfl

/-! ## `setRegsFrom` changes registers only, and writes the given bytes in order -/

@[simp] theorem State.setRegsFrom_mem (bs : List Byte) (s : State) (k : Nat) :
    (s.setRegsFrom k bs).mem = s.mem := by
  induction bs generalizing s k with
  | nil => rfl
  | cons b bs ih => rw [State.setRegsFrom, ih]; split <;> rfl

@[simp] theorem State.setRegsFrom_I (bs : List Byte) (s : State) (k : Nat) :
    (s.setRegsFrom k bs).I = s.I := by
  induction bs generalizing s k with
  | nil => rfl
  | cons b bs ih => rw [State.setRegsFrom, ih]; split <;> rfl

@[simp] theorem State.setRegsFrom_PC (bs : List Byte) (s : State) (k : Nat) :
    (s.setRegsFrom k bs).PC = s.PC := by
  induction bs generalizing s k with
  | nil => rfl
  | cons b bs ih => rw [State.setRegsFrom, ih]; split <;> rfl

@[simp] theorem State.setRegsFrom_stack (bs : List Byte) (s : State) (k : Nat) :
    (s.setRegsFrom k bs).stack = s.stack := by
  induction bs generalizing s k with
  | nil => rfl
  | cons b bs ih => rw [State.setRegsFrom, ih]; split <;> rfl

@[simp] theorem State.setRegsFrom_DT (bs : List Byte) (s : State) (k : Nat) :
    (s.setRegsFrom k bs).DT = s.DT := by
  induction bs generalizing s k with
  | nil => rfl
  | cons b bs ih => rw [State.setRegsFrom, ih]; split <;> rfl

@[simp] theorem State.setRegsFrom_ST (bs : List Byte) (s : State) (k : Nat) :
    (s.setRegsFrom k bs).ST = s.ST := by
  induction bs generalizing s k with
  | nil => rfl
  | cons b bs ih => rw [State.setRegsFrom, ih]; split <;> rfl

@[simp] theorem State.setRegsFrom_disp (bs : List Byte) (s : State) (k : Nat) :
    (s.setRegsFrom k bs).disp = s.disp := by
  induction bs generalizing s k with
  | nil => rfl
  | cons b bs ih => rw [State.setRegsFrom, ih]; split <;> rfl

@[simp] theorem State.setRegsFrom_keys (bs : List Byte) (s : State) (k : Nat) :
    (s.setRegsFrom k bs).keys = s.keys := by
  induction bs generalizing s k with
  | nil => rfl
  | cons b bs ih => rw [State.setRegsFrom, ih]; split <;> rfl

@[simp] theorem State.setRegsFrom_draws (bs : List Byte) (s : State) (k : Nat) :
    (s.setRegsFrom k bs).draws = s.draws := by
  induction bs generalizing s k with
  | nil => rfl
  | cons b bs ih => rw [State.setRegsFrom, ih]; split <;> rfl

/-- After `setRegsFrom k bs`, register y holds byte y - k of `bs` where there is one, and is unchanged elsewhere. -/
theorem State.reg_setRegsFrom (bs : List Byte) (s : State) (k : Nat) (y : Reg) :
    (s.setRegsFrom k bs).reg y = if k ≤ y.val then (bs[y.val - k]?).getD (s.reg y) else s.reg y := by
  induction bs generalizing s k with
  | nil => simp [State.setRegsFrom]
  | cons b bs ih =>
    rw [State.setRegsFrom, ih]
    rcases Nat.lt_trichotomy y.val k with h | h | h
    · rw [if_neg (by omega), if_neg (by omega)]
      split
      · rename_i hk
        rw [State.reg_setReg, if_neg (by intro e; simp [← e] at h)]
      · rfl
    · subst h
      have hk : y.val < 16 := y.isLt
      rw [if_neg (by omega), if_pos (Nat.le_refl _), dif_pos hk]
      simp
    · rw [if_pos (by omega), if_pos (by omega), show y.val - k = (y.val - (k + 1)) + 1 by omega,
        List.getElem?_cons_succ]
      congr 1
      split
      · rw [State.reg_setReg, if_neg (by intro e; simp [← e] at h)]
      · rfl

/-! ## Reset, at the defaults and for given parameters (R292) -/

@[simp] theorem resetCore_mem (s : State) : (resetCore s).mem = State.reset.mem := rfl
@[simp] theorem resetCore_V (s : State) : (resetCore s).V = State.reset.V := rfl
@[simp] theorem resetCore_I (s : State) : (resetCore s).I = State.reset.I := rfl
@[simp] theorem resetCore_PC (s : State) : (resetCore s).PC = State.reset.PC := rfl
@[simp] theorem resetCore_stack (s : State) : (resetCore s).stack = State.reset.stack := rfl
@[simp] theorem resetCore_DT (s : State) : (resetCore s).DT = State.reset.DT := rfl
@[simp] theorem resetCore_ST (s : State) : (resetCore s).ST = State.reset.ST := rfl
@[simp] theorem resetCore_disp (s : State) : (resetCore s).disp = State.reset.disp := rfl
@[simp] theorem resetCore_keys (s : State) : (resetCore s).keys = s.keys := rfl
@[simp] theorem resetCore_draws (s : State) : (resetCore s).draws = s.draws := rfl
@[simp] theorem resetWith_mem (p : Params) (s : State) : (resetWith p s).mem = constructedMemory p := rfl
@[simp] theorem resetWith_V (p : Params) (s : State) : (resetWith p s).V = State.reset.V := rfl
@[simp] theorem resetWith_I (p : Params) (s : State) : (resetWith p s).I = State.reset.I := rfl
@[simp] theorem resetWith_PC (p : Params) (s : State) : (resetWith p s).PC = State.reset.PC := rfl
@[simp] theorem resetWith_stack (p : Params) (s : State) : (resetWith p s).stack = State.reset.stack := rfl
@[simp] theorem resetWith_DT (p : Params) (s : State) : (resetWith p s).DT = State.reset.DT := rfl
@[simp] theorem resetWith_ST (p : Params) (s : State) : (resetWith p s).ST = State.reset.ST := rfl
@[simp] theorem resetWith_disp (p : Params) (s : State) : (resetWith p s).disp = State.reset.disp := rfl
@[simp] theorem resetWith_keys (p : Params) (s : State) : (resetWith p s).keys = s.keys := rfl
@[simp] theorem resetWith_draws (p : Params) (s : State) : (resetWith p s).draws = s.draws := rfl
@[simp] theorem newWith_mem (p : Params) : (newWith p).mem = constructedMemory p := rfl

end Sys2Proof.Machine
end

