-- ==== Sys2Proof/Laws/Ops.lean ====
section
/-! SUPPORT. One specification lemma for each shared operation: masking, the PC, operands, the keypad, stores and loads
through I, the draw, the fetch. -/

namespace Sys2Proof.Machine

/-! ## Masking (R36) -/

@[simp] theorem u8_toNat (n : Nat) : (u8 n).toNat = n % 256 := by
  simp only [u8, BitVec.toNat_ofInt]; omega

@[simp] theorem u16_toNat (n : Nat) : (u16 n).toNat = n % 65536 := by
  simp only [u16, BitVec.toNat_ofInt]; omega

/-- The difference of two bytes, stored in 8 bits (R161). -/
theorem u8_sub_toNat (a b : Byte) : (u8 ((a.toNat : Int) - b.toNat)).toNat = (256 + a.toNat - b.toNat) % 256 := by
  have := a.isLt; have := b.isLt
  simp only [u8, BitVec.toNat_ofInt]; omega

theorem u8_add_toNat (a b : Byte) : (u8 ((a.toNat : Int) + b.toNat)).toNat = (a.toNat + b.toNat) % 256 := by
  simp only [u8, BitVec.toNat_ofInt]; omega

theorem u16_add_toNat (a b : Nat) : (u16 ((a : Int) + b)).toNat = (a + b) % 65536 := by
  simp only [u16, BitVec.toNat_ofInt]; omega

/-! ## The PC (R126, R141) -/

/-- `u16(PC + k)` as a number. -/
theorem advance_PC_toNat (s : State) : s.advance.PC.toNat = (s.PC.toNat + 2) % 65536 := by
  rw [State.advance_PC]; exact u16_add_toNat s.PC.toNat 2

/-- A skip goes 4 on when its condition holds, else 2. -/
theorem skipIf_PC_toNat (s : State) (c : Bool) :
    (s.skipIf c).PC.toNat = if c then (s.PC.toNat + 4) % 65536 else (s.PC.toNat + 2) % 65536 := by
  rw [State.skipIf_PC]; cases c
  · exact u16_add_toNat s.PC.toNat 2
  · exact u16_add_toNat s.PC.toNat 4

/-! ## Operands -/

@[simp] theorem addrOperand_toNat (nnn : Addr) : (addrOperand nnn).toNat = nnn.toNat := by
  have := nnn.isLt
  simp only [addrOperand, BitVec.truncate_eq_setWidth, BitVec.toNat_setWidth]; omega

theorem jumpV0Target_toNat (s : State) (nnn : Addr) :
    (jumpV0Target s nnn).toNat = nnn.toNat + (s.reg 0).toNat := by
  have := nnn.isLt; have := (s.reg 0).isLt
  rw [jumpV0Target, u16_add_toNat, addrOperand_toNat]; omega

theorem lowNibble_toNat (v : Byte) : (v &&& 0x0F#8).toNat = v.toNat % 16 := by
  rw [BitVec.toNat_and]; exact Nat.and_two_pow_sub_one_eq_mod v.toNat 4

/-- The three BCD digits as numbers (R195). -/
theorem bcdDigits_toNat (v : Byte) :
    (bcdDigits v).map BitVec.toNat = [v.toNat / 100, v.toNat / 10 % 10, v.toNat % 10] := by
  have h := v.isLt
  simp only [bcdDigits, List.map_cons, List.map_nil, u8, BitVec.toNat_ofInt, List.cons.injEq, and_true]
  refine ⟨?_, ?_, ?_⟩ <;> omega

@[simp] theorem length_bcdDigits (v : Byte) : (bcdDigits v).length = 3 := rfl

@[simp] theorem length_regsUpTo (s : State) (x : Reg) : (s.regsUpTo x).length = x.val + 1 := by
  have := x.isLt
  simp [State.regsUpTo]

theorem getElem?_regsUpTo (s : State) (x k : Reg) (h : k ≤ x) : (s.regsUpTo x)[k.val]? = some (s.reg k) := by
  have hk : k.val < x.val + 1 := Nat.lt_succ_of_le h
  simp [State.regsUpTo, hk, State.reg_def]

/-! ## The keypad -/

theorem mem_pressed {s : State} {k : Key} : k ∈ s.pressed ↔ s.key k = true := by
  simp [State.pressed]

theorem pressed_eq_nil {s : State} : s.pressed = [] ↔ ∀ k, s.key k = false := by
  simp [State.pressed, List.filter_eq_nil_iff]

/-- The first of the pressed keys is the lowest (R234). -/
theorem pressed_head {s : State} {k : Key} (h : s.key k = true) (low : ∀ j, j < k → s.key j = false) :
    ∃ rest, s.pressed = k :: rest := by
  have sorted : (List.finRange 16).Pairwise (· < ·) := List.pairwise_lt_finRange 16
  have hsub := sorted.sublist (List.filter_sublist (p := fun k => s.key k))
  cases hp : s.pressed with
  | nil => exact absurd h (by simp [pressed_eq_nil.1 hp k])
  | cons j rest =>
    have hj : s.key j = true := mem_pressed.1 (hp ▸ List.mem_cons_self)
    have hk : k ∈ j :: rest := hp ▸ mem_pressed.2 h
    rcases List.mem_cons.1 hk with e | hk
    · exact ⟨rest, by rw [e]⟩
    · have hlt : j < k := by
        rw [State.pressed] at hp
        rw [hp] at hsub
        exact List.rel_of_pairwise_cons hsub hk
      rw [low j hlt] at hj; cases hj

/-- The key that `selectKey` takes is one of those offered. -/
theorem selectKey_mem {policy : KeyWaitSelect} {draw : Nat} {ks : List Key} {k : Key}
    (h : selectKey policy draw ks = some k) : k ∈ ks := by
  cases ks with
  | nil => cases h
  | cons j js =>
    cases policy with
    | lowest => simp only [selectKey, Option.some.injEq] at h; subst h; exact List.mem_cons_self
    | any =>
      simp only [selectKey, Option.some.injEq] at h
      have hlt : draw % (j :: js).length < (j :: js).length := Nat.mod_lt _ (by simp)
      rw [List.getElem?_eq_getElem hlt, Option.getD_some] at h
      subst h; exact List.getElem_mem hlt

theorem selectKey_eq_none {policy : KeyWaitSelect} {draw : Nat} {ks : List Key} :
    selectKey policy draw ks = none ↔ ks = [] := by
  cases ks <;> cases policy <;> simp [selectKey]

/-! ## The checks, as the address they report -/

/-- A read range that leaves memory reports its lowest address above 0xFFF (R66, R258). -/
theorem firstFault_readFault_some {base n : Nat} (hn : 0 < n) (h : memSize < base + n) :
    firstFault readFault base n = some (.outOfBounds (max base 0x1000)) := by
  rw [firstFault_eq_some]
  simp only [memSize] at h
  refine ⟨max base 0x1000 - base, by omega, ?_, ?_⟩
  · rw [readFault, if_pos (by omega)]; congr 2; omega
  · intro j hj; rw [readFault, if_neg (by omega)]

/-- A write range that starts in the reserved region reports its first address (R67, R258). -/
theorem firstFault_writeFault_low {base n : Nat} (hn : 0 < n) (h : base < progBase) :
    firstFault (writeFault .fault) base n = some (.outOfBounds base) := by
  rw [firstFault_eq_some]
  simp only [progBase] at h
  refine ⟨0, hn, ?_, by omega⟩
  rw [writeFault, if_neg (by omega), if_pos ⟨by simp only [progBase]; omega, rfl⟩]; rfl

/-- A write range that starts in the program region and leaves memory reports its lowest address above 0xFFF. -/
theorem firstFault_writeFault_high {base n : Nat} (hb : progBase ≤ base) (hn : 0 < n) (h : memSize < base + n) :
    firstFault (writeFault .fault) base n = some (.outOfBounds (max base 0x1000)) := by
  rw [firstFault_eq_some]
  simp only [memSize, progBase] at h hb
  refine ⟨max base 0x1000 - base, by omega, ?_, ?_⟩
  · rw [writeFault, if_pos (by omega)]; congr 2; omega
  · intro j hj; rw [writeFault, if_neg (by omega), if_neg (by simp only [progBase]; omega)]

/-- Under FONT_WRITE_POLICY = ignore the check is the read check: the reserved region does not offend (D5). -/
theorem writeFault_ignore (a : Nat) : writeFault .ignore a = readFault a := by
  simp [writeFault, readFault]

/-! ## Stores and loads through I (R191) -/

/-- Everything a store through I can do at FONT_WRITE_POLICY = fault: either an error, or the bytes at I on, the PC
advanced and I as given. -/
theorem storeAtIndex_next {p : Params} {bs : List Byte} {w : Word} {s t : State}
    (h : storeAtIndex p bs w s = .next t) :
    firstFault (writeFault p.fontWritePolicy) s.I.toNat bs.length = none ∧
      t = { s.advance with mem := s.mem.storeBytes p.fontWritePolicy s.I.toNat bs, I := w } := by
  unfold storeAtIndex indexAddr at h
  split at h
  · cases h
  · injection h with h; exact ⟨‹_›, h.symm⟩

/-- A store through I whose addresses all pass completes. -/
theorem storeAtIndex_eq_next {p : Params} {bs : List Byte} {w : Word} {s : State}
    (h : firstFault (writeFault p.fontWritePolicy) s.I.toNat bs.length = none) :
    storeAtIndex p bs w s = .next { s.advance with mem := s.mem.storeBytes p.fontWritePolicy s.I.toNat bs, I := w } := by
  unfold storeAtIndex indexAddr; rw [h]

theorem storeAtIndex_eq_fault {p : Params} {bs : List Byte} {w : Word} {s : State} {e : Fault}
    (h : firstFault (writeFault p.fontWritePolicy) s.I.toNat bs.length = some e) :
    storeAtIndex p bs w s = .fault e := by
  unfold storeAtIndex indexAddr; rw [h]; rfl

/-- Everything LD Vx, [I] can do when it completes. -/
theorem ldVxMemWith_next {p : Params} {x : Reg} {s t : State} (h : ldVxMemWith p x s = .next t) :
    firstFault readFault s.I.toNat (x.val + 1) = none ∧
      t = ((s.setRegsFrom 0 (s.mem.readBytes s.I.toNat (x.val + 1))).setI (indexAfter p x s)).advance := by
  unfold ldVxMemWith indexAddr at h
  split at h
  · cases h
  · injection h with h; exact ⟨‹_›, h.symm⟩

/-- Everything DRW can do when it completes. -/
theorem drwWith_next {p : Params} {x y : Reg} {n : Nibble} {s t : State} (h : drwWith p x y n s = .next t) :
    firstFault readFault s.I.toNat n.toNat = none ∧
      ∃ sprite drawn, sprite = s.mem.readBytes s.I.toNat n.toNat ∧
        drawn = drawSprite p.spriteBitOrder (s.reg x).toNat (s.reg y).toNat sprite s.disp ∧
        t = ({ s with disp := drawn.1 }.setFlag drawn.2).advance := by
  unfold drwWith indexAddr at h
  split at h
  · cases h
  · injection h with h; exact ⟨‹_›, _, _, rfl, rfl, h.symm⟩

/-! ## The fetch (R124) -/

theorem lowBit_eq_odd (w : Word) : w.getLsbD 0 = true ↔ w.toNat % 2 = 1 := by
  simp [BitVec.getLsbD, Nat.testBit_zero]

/-- A fetchable PC fetches the word at PC. -/
theorem fetch_of_fetchable {s : State} (h : Fetchable s.PC) (check : Bool) : fetch check s = .ok s.wordAtPC := by
  obtain ⟨h1, h2, h3⟩ := h
  unfold fetch
  rw [if_neg (by omega), if_neg]
  · rfl
  · rintro ⟨_, odd⟩
    have := (lowBit_eq_odd _).1 odd
    omega

/-- Fetch and decode at a fetchable PC. -/
theorem fetchDecode_of_fetchable {s : State} (h : Fetchable s.PC) (p : Params) :
    fetchDecode p s = match decodeWith p.dxy0Policy s.wordAtPC with
      | .ok i => .ok i
      | .error _ => .error (.unknownOpcode s.wordAtPC) := by
  cases hw : decodeWith p.dxy0Policy s.wordAtPC <;> simp [fetchDecode, fetch_of_fetchable h, hw]

/-- Everything a step can do: the fetch or the decode fails, or the decoded instruction runs. -/
theorem step_cases (s : State) :
    (∃ e, fetchDecode params s = .error e ∧ step s = .fault e) ∨
    ∃ i, fetchDecode params s = .ok i ∧ step s = exec i s := by
  unfold step
  cases h : fetchDecode params s with
  | error e => exact Or.inl ⟨e, rfl, rfl⟩
  | ok i => exact Or.inr ⟨i, rfl, rfl⟩

end Sys2Proof.Machine
end

