-- ==== Sys2Proof/Laws/PerInstr.lean ====
section
/-! SUPPORT. Statements made per instruction: the encoded word of an instruction lies in the instruction's own row
of opcode_table.json. -/

namespace Sys2Proof

theorem encNNN_and_F000 (f : Nibble) (nnn : Addr) : encNNN f nnn &&& 0xF000#16 = encNNN f 0 := by
  apply BitVec.eq_of_getLsbD_eq; intro i hi
  rw [BitVec.getLsbD_and, getLsbD_encNNN, getLsbD_encNNN]
  interval_cases i <;> simp

theorem encXKK_and_F000 (f : Nibble) (x : Reg) (kk : Byte) : encXKK f x kk &&& 0xF000#16 = encNNN f 0 := by
  apply BitVec.eq_of_getLsbD_eq; intro i hi
  rw [BitVec.getLsbD_and, getLsbD_encXKK, getLsbD_encNNN]
  interval_cases i <;> simp

theorem encXKK_and_F0FF (f : Nibble) (x : Reg) (kk : Byte) : encXKK f x kk &&& 0xF0FF#16 = encXKK f 0 kk := by
  apply BitVec.eq_of_getLsbD_eq; intro i hi
  rw [BitVec.getLsbD_and, getLsbD_encXKK, getLsbD_encXKK]
  interval_cases i <;> simp [regField]

theorem encXYN_and_F000 (f : Nibble) (x y : Reg) (n : Nibble) : encXYN f x y n &&& 0xF000#16 = encNNN f 0 := by
  apply BitVec.eq_of_getLsbD_eq; intro i hi
  rw [BitVec.getLsbD_and, getLsbD_encXYN, getLsbD_encNNN]
  interval_cases i <;> simp

theorem encXYN_and_F00F (f : Nibble) (x y : Reg) (n : Nibble) : encXYN f x y n &&& 0xF00F#16 = encXYN f 0 0 n := by
  apply BitVec.eq_of_getLsbD_eq; intro i hi
  rw [BitVec.getLsbD_and, getLsbD_encXYN, getLsbD_encXYN]
  interval_cases i <;> simp [regField]

/-- The encoded word of an instruction matches its row's (match, mask) pair. -/
def Laws.EncodesItsRow.Statement (i : Instr) : Prop := encode i &&& (tableRow i).2 = (tableRow i).1

theorem Laws.EncodesItsRow.cls :
    Laws.EncodesItsRow.Statement (.cls) := rfl

theorem Laws.EncodesItsRow.ret :
    Laws.EncodesItsRow.Statement (.ret) := rfl

theorem Laws.EncodesItsRow.jp (nnn : Addr) :
    Laws.EncodesItsRow.Statement (.jp nnn) := encNNN_and_F000 _ _

theorem Laws.EncodesItsRow.call (nnn : Addr) :
    Laws.EncodesItsRow.Statement (.call nnn) := encNNN_and_F000 _ _

theorem Laws.EncodesItsRow.seImm (x : Reg) (kk : Byte) :
    Laws.EncodesItsRow.Statement (.seImm x kk) := encXKK_and_F000 _ _ _

theorem Laws.EncodesItsRow.sneImm (x : Reg) (kk : Byte) :
    Laws.EncodesItsRow.Statement (.sneImm x kk) := encXKK_and_F000 _ _ _

theorem Laws.EncodesItsRow.seReg (x y : Reg) :
    Laws.EncodesItsRow.Statement (.seReg x y) := encXYN_and_F00F _ _ _ _

theorem Laws.EncodesItsRow.ldImm (x : Reg) (kk : Byte) :
    Laws.EncodesItsRow.Statement (.ldImm x kk) := encXKK_and_F000 _ _ _

theorem Laws.EncodesItsRow.addImm (x : Reg) (kk : Byte) :
    Laws.EncodesItsRow.Statement (.addImm x kk) := encXKK_and_F000 _ _ _

theorem Laws.EncodesItsRow.ldReg (x y : Reg) :
    Laws.EncodesItsRow.Statement (.ldReg x y) := encXYN_and_F00F _ _ _ _

theorem Laws.EncodesItsRow.orReg (x y : Reg) :
    Laws.EncodesItsRow.Statement (.orReg x y) := encXYN_and_F00F _ _ _ _

theorem Laws.EncodesItsRow.andReg (x y : Reg) :
    Laws.EncodesItsRow.Statement (.andReg x y) := encXYN_and_F00F _ _ _ _

theorem Laws.EncodesItsRow.xorReg (x y : Reg) :
    Laws.EncodesItsRow.Statement (.xorReg x y) := encXYN_and_F00F _ _ _ _

theorem Laws.EncodesItsRow.addReg (x y : Reg) :
    Laws.EncodesItsRow.Statement (.addReg x y) := encXYN_and_F00F _ _ _ _

theorem Laws.EncodesItsRow.sub (x y : Reg) :
    Laws.EncodesItsRow.Statement (.sub x y) := encXYN_and_F00F _ _ _ _

theorem Laws.EncodesItsRow.shr (x : Reg) :
    Laws.EncodesItsRow.Statement (.shr x) := encXYN_and_F00F _ _ _ _

theorem Laws.EncodesItsRow.subn (x y : Reg) :
    Laws.EncodesItsRow.Statement (.subn x y) := encXYN_and_F00F _ _ _ _

theorem Laws.EncodesItsRow.shl (x : Reg) :
    Laws.EncodesItsRow.Statement (.shl x) := encXYN_and_F00F _ _ _ _

theorem Laws.EncodesItsRow.sneReg (x y : Reg) :
    Laws.EncodesItsRow.Statement (.sneReg x y) := encXYN_and_F00F _ _ _ _

theorem Laws.EncodesItsRow.ldI (nnn : Addr) :
    Laws.EncodesItsRow.Statement (.ldI nnn) := encNNN_and_F000 _ _

theorem Laws.EncodesItsRow.jpV0 (nnn : Addr) :
    Laws.EncodesItsRow.Statement (.jpV0 nnn) := encNNN_and_F000 _ _

theorem Laws.EncodesItsRow.rnd (x : Reg) (kk : Byte) :
    Laws.EncodesItsRow.Statement (.rnd x kk) := encXKK_and_F000 _ _ _

theorem Laws.EncodesItsRow.drw (x y : Reg) (n : Nibble) :
    Laws.EncodesItsRow.Statement (.drw x y n) := encXYN_and_F000 _ _ _ _

theorem Laws.EncodesItsRow.skp (x : Reg) :
    Laws.EncodesItsRow.Statement (.skp x) := encXKK_and_F0FF _ _ _

theorem Laws.EncodesItsRow.sknp (x : Reg) :
    Laws.EncodesItsRow.Statement (.sknp x) := encXKK_and_F0FF _ _ _

theorem Laws.EncodesItsRow.ldVxDt (x : Reg) :
    Laws.EncodesItsRow.Statement (.ldVxDt x) := encXKK_and_F0FF _ _ _

theorem Laws.EncodesItsRow.ldVxK (x : Reg) :
    Laws.EncodesItsRow.Statement (.ldVxK x) := encXKK_and_F0FF _ _ _

theorem Laws.EncodesItsRow.ldDtVx (x : Reg) :
    Laws.EncodesItsRow.Statement (.ldDtVx x) := encXKK_and_F0FF _ _ _

theorem Laws.EncodesItsRow.ldStVx (x : Reg) :
    Laws.EncodesItsRow.Statement (.ldStVx x) := encXKK_and_F0FF _ _ _

theorem Laws.EncodesItsRow.addIVx (x : Reg) :
    Laws.EncodesItsRow.Statement (.addIVx x) := encXKK_and_F0FF _ _ _

theorem Laws.EncodesItsRow.ldFVx (x : Reg) :
    Laws.EncodesItsRow.Statement (.ldFVx x) := encXKK_and_F0FF _ _ _

theorem Laws.EncodesItsRow.ldBVx (x : Reg) :
    Laws.EncodesItsRow.Statement (.ldBVx x) := encXKK_and_F0FF _ _ _

theorem Laws.EncodesItsRow.ldMemVx (x : Reg) :
    Laws.EncodesItsRow.Statement (.ldMemVx x) := encXKK_and_F0FF _ _ _

theorem Laws.EncodesItsRow.ldVxMem (x : Reg) :
    Laws.EncodesItsRow.Statement (.ldVxMem x) := encXKK_and_F0FF _ _ _

end Sys2Proof
end

