-- ==== Sys2Proof/Tests/Slice0.lean ====
section
/-! SUPPORT. The model's own tests, each by decide on fixed values, and a witness for the hypotheses of each obligation.
The expected results are the vectors of 95_test_vectors.md (named in each comment) and words written out from the
patterns of 30_encoding.md §4, never the model's own answers. -/

open Sys2Proof Sys2Proof.Machine

namespace Sys2Proof.Tests

/-! ## Small states -/

/-- The reset state with some registers set. -/
def withRegs (l : List (Reg × Byte)) : State := l.foldl (fun s p => s.setReg p.1 p.2) State.reset

/-- One step with the word where the step fetches. -/
def stepWord (w : Word) (s : State) : Result := step (s.withFetchWord 16 w.toNat)

/-- The step goes on, to a state with this property. -/
def goesOn (r : Result) (p : State → Bool) : Bool :=
  match r with
  | .next t => p t
  | _ => false

/-- The step reports this error. -/
def reports (r : Result) (e : Fault) : Bool :=
  match r with
  | .fault e' => decide (e' = e)
  | _ => false

/-- The decoder rejects the word by name. -/
def rejects (w : Word) : Bool := decide (decode w = .error (.unknownOpcode w))

/-- The columns of the pixels that are on in one row. -/
def columnsOn (s : State) (row : Fin 32) : List (Fin 64) := (List.finRange 64).filter fun col => s.disp.pixel row col

/-- Memory with bytes stored from an address on. -/
def State.storing (s : State) (a : Nat) (bs : List Byte) : State := { s with mem := s.mem.writeBytes a bs }

/-- A key held down. -/
def State.holding (s : State) (k : Key) : State := { s with keys := s.keys.set k true }

/-- A pixel turned over. -/
def State.flipped (s : State) (row : Fin 32) (col : Fin 64) : State := { s with disp := s.disp.flip row col }

/-! ## WellFormed: the one check, refused and passed (R94, R101) -/

theorem test_ill_formed_drw_height_0 : (Instr.drw 1 2 0#4).wellFormed = false := by decide
theorem test_well_formed_drw_height_15 : (Instr.drw 1 2 15#4).wellFormed = true := by decide
theorem test_height_0_allowed_under_noop_vf0 : (Instr.drw 1 2 0#4).wellFormedWith .noopVf0 = true := by decide

/-! ## Decode: a word of every row, written out from its pattern -/

theorem test_decode_families_0_to_4 :
    decode 0b0000000011100000#16 = .ok .cls ∧ decode 0b0000000011101110#16 = .ok .ret ∧
    decode 0b0001101010111100#16 = .ok (.jp 0xABC#12) ∧ decode 0b0010001000010000#16 = .ok (.call 0x210#12) ∧
    decode 0b0011010100010010#16 = .ok (.seImm 5 0x12#8) ∧ decode 0b0100010100010010#16 = .ok (.sneImm 5 0x12#8) := by
  decide

theorem test_decode_families_5_to_7 :
    decode 0b0101000100100000#16 = .ok (.seReg 1 2) ∧ decode 0b0110101001000010#16 = .ok (.ldImm 10 0x42#8) ∧
    decode 0b0111000000000001#16 = .ok (.addImm 0 0x01#8) := by decide

theorem test_decode_family_8 :
    decode 0b1000000100100000#16 = .ok (.ldReg 1 2) ∧ decode 0b1000000100100001#16 = .ok (.orReg 1 2) ∧
    decode 0b1000000100100010#16 = .ok (.andReg 1 2) ∧ decode 0b1000000100100011#16 = .ok (.xorReg 1 2) ∧
    decode 0b1000000100100100#16 = .ok (.addReg 1 2) ∧ decode 0b1000000100100101#16 = .ok (.sub 1 2) ∧
    decode 0b1000000100100110#16 = .ok (.shr 1) ∧ decode 0b1000000100100111#16 = .ok (.subn 1 2) ∧
    decode 0b1000000100101110#16 = .ok (.shl 1) := by decide

theorem test_decode_families_9_to_D :
    decode 0b1001000100100000#16 = .ok (.sneReg 1 2) ∧ decode 0b1010000100100011#16 = .ok (.ldI 0x123#12) ∧
    decode 0b1011001100000000#16 = .ok (.jpV0 0x300#12) ∧ decode 0b1100001100001111#16 = .ok (.rnd 3 0x0F#8) ∧
    decode 0b1101000100100101#16 = .ok (.drw 1 2 5#4) := by decide

theorem test_decode_families_E_F :
    decode 0b1110010110011110#16 = .ok (.skp 5) ∧ decode 0b1110010110100001#16 = .ok (.sknp 5) ∧
    decode 0b1111000100000111#16 = .ok (.ldVxDt 1) ∧ decode 0b1111001100001010#16 = .ok (.ldVxK 3) ∧
    decode 0b1111000000010101#16 = .ok (.ldDtVx 0) ∧ decode 0b1111010000011000#16 = .ok (.ldStVx 4) ∧
    decode 0b1111001000011110#16 = .ok (.addIVx 2) ∧ decode 0b1111000000101001#16 = .ok (.ldFVx 0) ∧
    decode 0b1111000000110011#16 = .ok (.ldBVx 0) ∧ decode 0b1111001101010101#16 = .ok (.ldMemVx 3) ∧
    decode 0b1111001001100101#16 = .ok (.ldVxMem 2) := by decide

/-- The words that the patterns spell out, from the instructions (30_encoding.md §4). -/
theorem test_encode_words :
    encode (.jp 0xABC#12) = 0x1ABC#16 ∧ encode (.ldImm 10 0x42#8) = 0x6A42#16 ∧ encode (.subn 0 1) = 0x8017#16 ∧
    encode (.shl 7) = 0x870E#16 ∧ encode (.drw 1 2 5#4) = 0xD125#16 ∧ encode (.ldVxMem 3) = 0xF365#16 := by decide

/-- Vectors U1 to U15: words that are no instruction. -/
theorem test_rejected_words :
    ([0x0000#16, 0x0123#16, 0x01E0#16, 0x00E1#16, 0x00FF#16, 0x5011#16, 0x9011#16, 0x8008#16, 0x800F#16, 0xD010#16,
      0xE000#16, 0xE09F#16, 0xF000#16, 0xF0FF#16, 0xFFFF#16].all rejects) = true := by decide

/-- Bytes in memory order: the high byte first (R70, R91); one byte alone is no instruction. -/
theorem test_decode_bytes :
    decodeBytes [0x12#8, 0x34#8, 0x56#8] = .ok (.jp 0x234#12, [0x56#8]) ∧
    decodeBytes [0x12#8] = .error .truncated := by decide

/-- The table's numbering: bits 15 to 12 are the family. -/
theorem test_decode_table_word :
    decodeTableWord 16 0x1234 = some (.jp 0x234#12) ∧ decodeTableWord 16 0x0000 = none := by decide

/-! ## Fetch and step -/

/-- X1: PC = 0xFFE is the last slot. -/
theorem test_fetch_at_last_slot :
    goesOn (stepWord 0x00E0#16 (State.reset.jump 0xFFE#16)) (fun t => t.PC == 0x1000#16) = true := by decide

/-- X2 to X5 and C21: PC outside 0x200-0xFFE, and odd. -/
theorem test_fetch_out_of_bounds :
    ([0xFFF#16, 0x1FE#16, 0x201#16, 0x1000#16, 0x100#16].all fun pc =>
      reports (step (State.reset.jump pc)) (.outOfBounds pc.toNat)) = true := by decide

/-- X7: the fetch succeeds and the decode fails. -/
theorem test_unknown_at_last_slot :
    reports (stepWord 0xFFFF#16 (State.reset.jump 0xFFE#16)) (.unknownOpcode 0xFFFF#16) = true := by decide

/-- X8: the fetch is checked before the word. -/
theorem test_fetch_checked_first :
    reports (step (State.storing (State.reset.jump 0xFFF#16) 0xFFE [0x01#8, 0x23#8])) (.outOfBounds 0xFFF) = true := by
  decide

/-- R1 (R297): a step of the machine as constructed. -/
theorem test_step_of_reset : reports (step State.reset) (.unknownOpcode 0x0000#16) = true := by decide

/-- R6: the error again, at the same state. -/
theorem test_error_recurs :
    (transactAll [.step, .step] (State.reset.withFetchWord 16 0x00EE)).PC = 0x200#16 ∧
    (transact .step (State.reset.withFetchWord 16 0x00EE)).2 = .err .stackUnderflow := by decide

/-! ## Loads, arithmetic, logic, random -/

/-- A1. -/
theorem test_ldImm : goesOn (stepWord 0x6A42#16 State.reset) (fun t => t.reg 10 == 0x42#8 && t.PC == 0x202#16) = true := by
  decide

/-- A2. -/
theorem test_addImm_no_flag : goesOn (stepWord 0x7001#16 (withRegs [(0, 0xFF#8), (VF, 0x55#8)]))
    (fun t => t.reg 0 == 0x00#8 && t.reg VF == 0x55#8 && t.PC == 0x202#16) = true := by decide

/-- A3. -/
theorem test_addImm_to_VF : goesOn (stepWord 0x7F01#16 (withRegs [(VF, 0xFF#8)])) (fun t => t.reg VF == 0x00#8) = true := by
  decide

/-- A29. -/
theorem test_ldReg : goesOn (stepWord 0x8010#16 (withRegs [(1, 0x3C#8)])) (fun t => t.reg 0 == 0x3C#8) = true := by decide

/-- A25. -/
theorem test_or_no_flag : goesOn (stepWord 0x8011#16 (withRegs [(0, 0xF0#8), (1, 0x0F#8), (VF, 0x05#8)]))
    (fun t => t.reg 0 == 0xFF#8 && t.reg VF == 0x05#8) = true := by decide

/-- A26. -/
theorem test_and : goesOn (stepWord 0x8012#16 (withRegs [(0, 0xF0#8), (1, 0x3C#8)])) (fun t => t.reg 0 == 0x30#8) = true := by
  decide

/-- A27. -/
theorem test_xor : goesOn (stepWord 0x8013#16 (withRegs [(0, 0xFF#8), (1, 0x0F#8)])) (fun t => t.reg 0 == 0xF0#8) = true := by
  decide

/-- A7. -/
theorem test_add_carry : goesOn (stepWord 0x8014#16 (withRegs [(0, 0xFF#8), (1, 0xFF#8)]))
    (fun t => t.reg 0 == 0xFE#8 && t.reg VF == 1#8) = true := by decide

/-- F2: the old VF is the addend. -/
theorem test_add_reads_VF_first : goesOn (stepWord 0x80F4#16 (withRegs [(0, 0x10#8), (VF, 0x01#8)]))
    (fun t => t.reg 0 == 0x11#8 && t.reg VF == 0#8) = true := by decide

/-- A12. -/
theorem test_sub_borrow : goesOn (stepWord 0x8015#16 (withRegs [(0, 0x00#8), (1, 0xFF#8)]))
    (fun t => t.reg 0 == 0x01#8 && t.reg VF == 0#8) = true := by decide

/-- A11: equal operands do not borrow. -/
theorem test_sub_equal : goesOn (stepWord 0x8015#16 (withRegs [(0, 0x05#8), (1, 0x05#8)]))
    (fun t => t.reg 0 == 0x00#8 && t.reg VF == 1#8) = true := by decide

/-- U16: y is not read, 80F6. -/
theorem test_shr_ignores_y : goesOn (stepWord 0x80F6#16 (withRegs [(0, 0x05#8), (1, 0x0A#8)]))
    (fun t => t.reg 0 == 0x02#8 && t.reg VF == 1#8) = true := by decide

/-- F6: the flag wins over the result. -/
theorem test_shr_VF : goesOn (stepWord 0x8F06#16 (withRegs [(VF, 0x03#8)])) (fun t => t.reg VF == 1#8) = true := by decide

/-- A16. -/
theorem test_subn_borrow : goesOn (stepWord 0x8017#16 (withRegs [(0, 0x05#8), (1, 0x03#8)]))
    (fun t => t.reg 0 == 0xFE#8 && t.reg VF == 0#8) = true := by decide

/-- A15. -/
theorem test_subn_no_borrow : goesOn (stepWord 0x8017#16 (withRegs [(0, 0x03#8), (1, 0x05#8)]))
    (fun t => t.reg 0 == 0x02#8 && t.reg VF == 1#8) = true := by decide

/-- A22. -/
theorem test_shl : goesOn (stepWord 0x800E#16 (withRegs [(0, 0x81#8)]))
    (fun t => t.reg 0 == 0x02#8 && t.reg VF == 1#8) = true := by decide

/-- F7. -/
theorem test_shl_VF : goesOn (stepWord 0x8F0E#16 (withRegs [(VF, 0x40#8)])) (fun t => t.reg VF == 0#8) = true := by decide

/-- A30: r = 0xAB. -/
theorem test_rnd_masks : goesOn (rndWith 0xAB#8 3 0x0F#8 State.reset) (fun t => t.reg 3 == 0x0B#8) = true := by decide

/-! ## Control flow -/

/-- C3. -/
theorem test_ret : goesOn (stepWord 0x00EE#16 { State.reset with PC := 0x212#16, stack := [0x206#16] })
    (fun t => t.PC == 0x206#16 && t.stack == []) = true := by decide

/-- C4. -/
theorem test_ret_underflow : reports (stepWord 0x00EE#16 State.reset) .stackUnderflow = true := by decide

/-- C1. -/
theorem test_jp : goesOn (stepWord 0x1ABC#16 State.reset) (fun t => t.PC == 0xABC#16) = true := by decide

/-- C6: the pushed address is kept at 16 bits. -/
theorem test_call_at_top : goesOn (stepWord 0x2000#16 (State.reset.jump 0xFFE#16))
    (fun t => t.stack == [0x1000#16] && t.PC == 0x000#16) = true := by decide

/-- C5. -/
theorem test_call_overflow :
    reports (stepWord 0x2300#16 { State.reset with stack := List.replicate 16 0x202#16 }) .stackOverflow = true := by decide

/-- C7, C8. -/
theorem test_seImm : goesOn (stepWord 0x3005#16 (withRegs [(0, 0x05#8)])) (fun t => t.PC == 0x204#16) = true ∧
    goesOn (stepWord 0x3006#16 (withRegs [(0, 0x05#8)])) (fun t => t.PC == 0x202#16) = true := by decide

/-- C9, C10. -/
theorem test_sneImm : goesOn (stepWord 0x4006#16 (withRegs [(0, 0x05#8)])) (fun t => t.PC == 0x204#16) = true ∧
    goesOn (stepWord 0x4005#16 (withRegs [(0, 0x05#8)])) (fun t => t.PC == 0x202#16) = true := by decide

/-- C11, C12. -/
theorem test_seReg : goesOn (stepWord 0x5010#16 ((withRegs [(0, 0x42#8), (1, 0x42#8)]).jump 0x300#16))
      (fun t => t.PC == 0x304#16) = true ∧
    goesOn (stepWord 0x5110#16 State.reset) (fun t => t.PC == 0x204#16) = true := by decide

/-- C13, C14. -/
theorem test_sneReg : goesOn (stepWord 0x9010#16 ((withRegs [(0, 1#8), (1, 2#8)]).jump 0x300#16))
      (fun t => t.PC == 0x304#16) = true ∧
    goesOn (stepWord 0x9000#16 State.reset) (fun t => t.PC == 0x202#16) = true := by decide

/-- C18: the sum is not cut to 12 bits. -/
theorem test_jpV0 : goesOn (stepWord 0xBFFF#16 (withRegs [(0, 0xFF#8)])) (fun t => t.PC == 0x10FE#16) = true := by decide

/-! ## Index register and memory -/

/-- M1. -/
theorem test_ldI : goesOn (stepWord 0xA123#16 State.reset) (fun t => t.I == 0x123#16) = true := by decide

/-- M4: 16-bit wrap. -/
theorem test_addI_wraps : goesOn (stepWord 0xF01E#16 ((withRegs [(0, 0x01#8)]).setI 0xFFFF#16)) (fun t => t.I == 0x0000#16)
    = true := by decide

/-- M5: no flag, and VF as the operand. -/
theorem test_addI_no_flag : goesOn (stepWord 0xFF1E#16 ((withRegs [(VF, 0x20#8)]).setI 0x300#16))
    (fun t => t.I == 0x320#16 && t.reg VF == 0x20#8) = true := by decide

/-- M7: the low nibble only. -/
theorem test_ldF : goesOn (stepWord 0xF029#16 (withRegs [(0, 0x1F#8)])) (fun t => t.I == 0x04B#16) = true := by decide

/-- M14: 123 at the top of memory. -/
theorem test_ldB_at_top : goesOn (stepWord 0xF033#16 ((withRegs [(0, 123#8)]).setI 0xFFD#16))
    (fun t => t.mem.readBytes 0xFFD 3 == [1#8, 2#8, 3#8]) = true := by decide

/-- M15. -/
theorem test_ldB_past_top :
    reports (stepWord 0xF033#16 ((withRegs [(0, 123#8)]).setI 0xFFE#16)) (.outOfBounds 0x1000) = true := by decide

/-- M17. -/
theorem test_ldMem : goesOn (stepWord 0xF355#16 ((withRegs [(0, 1#8), (1, 2#8), (2, 3#8), (3, 4#8)]).setI 0x300#16))
    (fun t => t.mem.readBytes 0x300 5 == [1#8, 2#8, 3#8, 4#8, 0#8] && t.I == 0x300#16) = true := by decide

/-- M20: the lowest offending address. -/
theorem test_ldMem_reserved :
    reports (stepWord 0xF355#16 ((withRegs [(0, 1#8), (1, 2#8), (2, 3#8), (3, 4#8)]).setI 0x1FE#16)) (.outOfBounds 0x1FE)
      = true := by decide

/-- M23: glyph F. -/
theorem test_ldVxMem_glyph : goesOn (stepWord 0xF465#16 (State.reset.setI 0x04B#16))
    (fun t => [t.reg 0, t.reg 1, t.reg 2, t.reg 3, t.reg 4, t.reg 5] == [0xF0#8, 0x80#8, 0xF0#8, 0x80#8, 0x80#8, 0#8])
      = true := by decide

/-- M25. -/
theorem test_ldVxMem_past_top :
    reports (stepWord 0xF265#16 (State.reset.setI 0xFFE#16)) (.outOfBounds 0x1000) = true := by decide

/-! ## Display -/

/-- D1. -/
theorem test_cls : goesOn (stepWord 0x00E0#16 (State.flipped State.reset 3 7)) (fun t => columnsOn t 3 == [] && t.PC == 0x202#16)
    = true := by decide

/-- D9: one pixel on, one off, VF = 1. -/
theorem test_drw_collision :
    goesOn (stepWord 0xD001#16
      (State.flipped (State.storing ((withRegs [(VF, 7#8)]).setI 0x300#16) 0x300 [0xC0#8]) 0 1))
      (fun t => columnsOn t 0 == [0] && t.reg VF == 1#8) = true := by decide

/-- P4, step 4: both axes wrap. -/
theorem test_drw_wraps :
    goesOn (stepWord 0xD012#16 (State.storing ((withRegs [(0, 0x3E#8), (1, 0x1F#8)]).setI 0x20A#16) 0x20A [0xC3#8, 0x81#8]))
      (fun t => columnsOn t 31 == [4, 5, 62, 63] && columnsOn t 0 == [5, 62] && t.reg VF == 0#8) = true := by decide

/-! ## Keypad and timers -/

/-- K1, K5. -/
theorem test_skp :
    goesOn (stepWord 0xE09E#16 (State.holding (withRegs [(0, 5#8)]) 5)) (fun t => t.PC == 0x204#16) = true ∧
    reports (stepWord 0xE09E#16 (withRegs [(0, 0x10#8)])) (.invalidKey 0x10#8) = true := by decide

/-- K3, K6. -/
theorem test_sknp :
    goesOn (stepWord 0xE0A1#16 (withRegs [(0, 5#8)])) (fun t => t.PC == 0x204#16) = true ∧
    reports (stepWord 0xE0A1#16 (withRegs [(0, 0xFF#8)])) (.invalidKey 0xFF#8) = true := by decide

/-- K8: the lowest key. -/
theorem test_key_wait : goesOn (stepWord 0xF30A#16 (State.holding (State.holding (State.reset.jump 0x220#16) 7) 3))
    (fun t => t.reg 3 == 3#8 && t.PC == 0x222#16) = true := by decide

/-- K7: no key. -/
theorem test_key_wait_stays : goesOn (stepWord 0xF30A#16 (State.reset.jump 0x220#16))
    (fun t => t.PC == 0x220#16 && t.reg 3 == 0#8) = true := by decide

/-- T1. -/
theorem test_ldVxDt : goesOn (stepWord 0xF107#16 { State.reset with DT := 0x3C#8 })
    (fun t => t.reg 1 == 0x3C#8 && t.DT == 0x3C#8) = true := by decide

/-- T2. -/
theorem test_ldDtVx : goesOn (stepWord 0xF015#16 (withRegs [(0, 0xFF#8)])) (fun t => t.DT == 0xFF#8 && t.ST == 0#8) = true := by
  decide

/-- T6. -/
theorem test_ldStVx : goesOn (stepWord 0xF418#16 (withRegs [(4, 0x0A#8)])) (fun t => t.ST == 0x0A#8 && t.DT == 0#8) = true := by
  decide

/-! ## The host interface -/

/-- T4, T5. -/
theorem test_ticks : (tickTimers { State.reset with DT := 3#8, ST := 1#8 }).DT = 2#8 ∧
    (tickTimers { State.reset with DT := 3#8, ST := 1#8 }).ST = 0#8 ∧ (tickTimers State.reset).DT = 0#8 := by decide

/-- K10. -/
theorem test_key_events : (keyDown 4 (keyDown 4 State.reset)).key 4 = true ∧
    (keyUp 4 (keyDown 4 (keyDown 4 State.reset))).key 4 = false := by decide

/-- R2: everything but the keypad. -/
theorem test_reset : (resetCore (State.holding { State.reset with PC := 0x456#16, stack := [1#16, 2#16], DT := 9#8 } 5)).PC
      = 0x200#16 ∧ (resetCore (State.holding { State.reset with PC := 0x456#16 } 5)).key 5 = true := by decide

/-- R4: one byte too many. -/
theorem test_load_too_long : transact (.loadProgram (List.replicate 3585 0x11#8)) State.reset
    = (State.reset, .err (.outOfBounds 0x1000)) := by
  simp only [transact, loadProgram, List.length_replicate]; rfl

/-- P2's first words, loaded. -/
theorem test_load : (transact (.loadProgram [0x60#8, 0xFE#8, 0xA3#8, 0x00#8]) (State.reset.jump 0x300#16)).1.wordAtPC
    = 0x60FE#16 := by decide

/-- R251's codes. -/
theorem test_fault_codes : [Fault.outOfBounds 0, .stackOverflow, .stackUnderflow, .unknownOpcode 0#16, .invalidRegister 16,
    .invalidKey 16#8].map Fault.code = [1, 2, 3, 4, 5, 6] := by decide

/-- The register-file interface at its bound (R24). -/
theorem test_register_file : regFileRead State.reset 15 = .ok 0#8 ∧
    regFileRead State.reset 16 = .error (.invalidRegister 16) := by decide

/-! ## Witnesses: concrete states and operands that meet the hypotheses of each obligation, clause by clause -/

/-- The reset state with a word at 0x200. -/
def atStart (w : Nat) : State := State.reset.withFetchWord 16 w

/-- The reset state with I, and canonical memory. -/
def withI (w : Word) : State := State.reset.setI w

theorem witness_DecodeEncodeRoundTrip :
    (Instr.drw 15 0 1#4).wellFormed = true ∧ (Instr.drw 0 15 15#4).wellFormed = true ∧ Instr.cls.wellFormed = true := by decide

theorem witness_OnlyShiftsHaveDontCareBits :
    decode 0x8FF6#16 = .ok (.shr 15) ∧ decode 0x80FE#16 = .ok (.shl 0) ∧ decode 0xFF65#16 = .ok (.ldVxMem 15) := by decide

/-- A word for each pattern of families 8, E and F, at boundary values of its fields, and a word that each refuses. -/
theorem witness_FamiliesEightEF :
    (0x8FF0#16 &&& 0xF00F#16 = 0x8000#16 ∧ 0x8001#16 &&& 0xF00F#16 = 0x8001#16 ∧ 0x8FF2#16 &&& 0xF00F#16 = 0x8002#16 ∧
      0x80F3#16 &&& 0xF00F#16 = 0x8003#16 ∧ 0x8F04#16 &&& 0xF00F#16 = 0x8004#16 ∧ 0x8FF5#16 &&& 0xF00F#16 = 0x8005#16 ∧
      0x80F6#16 &&& 0xF00F#16 = 0x8006#16 ∧ 0x8F07#16 &&& 0xF00F#16 = 0x8007#16 ∧ 0x8FFE#16 &&& 0xF00F#16 = 0x800E#16) ∧
    (0xE09E#16 &&& 0xF0FF#16 = 0xE09E#16 ∧ 0xEFA1#16 &&& 0xF0FF#16 = 0xE0A1#16) ∧
    (0xFF07#16 &&& 0xF0FF#16 = 0xF007#16 ∧ 0xF00A#16 &&& 0xF0FF#16 = 0xF00A#16 ∧ 0xFF15#16 &&& 0xF0FF#16 = 0xF015#16 ∧
      0xF018#16 &&& 0xF0FF#16 = 0xF018#16 ∧ 0xFF1E#16 &&& 0xF0FF#16 = 0xF01E#16 ∧ 0xF029#16 &&& 0xF0FF#16 = 0xF029#16 ∧
      0xFF33#16 &&& 0xF0FF#16 = 0xF033#16 ∧ 0xF055#16 &&& 0xF0FF#16 = 0xF055#16 ∧ 0xFF65#16 &&& 0xF0FF#16 = 0xF065#16) ∧
    (fieldFamily 0x800F#16 = 0x8 ∧ (fieldN 0x800F#16).toNat ∈ [0x8, 0x9, 0xA, 0xB, 0xC, 0xD, 0xF]) ∧
    (fieldFamily 0xE09F#16 = 0xE ∧ (fieldKK 0xE09F#16).toNat ∉ [0x9E, 0xA1]) ∧
    (fieldFamily 0xF066#16 = 0xF ∧
      (fieldKK 0xF066#16).toNat ∉ [0x07, 0x0A, 0x15, 0x18, 0x1E, 0x29, 0x33, 0x55, 0x65]) := by decide

/-- A word for each clause of the other families. -/
theorem witness_OtherFamilies :
    (fieldFamily 0x00E0#16 = 0x0 ∧ fieldFamily 0x00EE#16 = 0x0 ∧ fieldFamily 0x00EF#16 = 0x0) ∧
    (0x1FFF#16 &&& 0xF000#16 = 0x1000#16 ∧ 0x2000#16 &&& 0xF000#16 = 0x2000#16 ∧ 0x3FFF#16 &&& 0xF000#16 = 0x3000#16 ∧
      0x4000#16 &&& 0xF000#16 = 0x4000#16 ∧ 0x5FF0#16 &&& 0xF00F#16 = 0x5000#16 ∧ 0x6FFF#16 &&& 0xF000#16 = 0x6000#16 ∧
      0x7000#16 &&& 0xF000#16 = 0x7000#16 ∧ 0x9010#16 &&& 0xF00F#16 = 0x9000#16 ∧ 0xAFFF#16 &&& 0xF000#16 = 0xA000#16 ∧
      0xB000#16 &&& 0xF000#16 = 0xB000#16 ∧ 0xCFFF#16 &&& 0xF000#16 = 0xC000#16) ∧
    (fieldFamily 0x5FF1#16 = 0x5 ∧ fieldN 0x5FF1#16 ≠ 0#4 ∧ fieldFamily 0x901F#16 = 0x9 ∧ fieldN 0x901F#16 ≠ 0#4) ∧
    (fieldFamily 0xD000#16 = 0xD ∧ fieldN 0xD000#16 = 0#4 ∧ fieldN 0xDFF1#16 ≠ 0#4) := by decide

theorem witness_StepRunsTheDecodedInstruction :
    (Fetchable (atStart 0x00E0).PC ∧ decode (atStart 0x00E0).wordAtPC = .ok .cls) ∧
    Fetchable ((State.reset.jump 0xFFE#16).withFetchWord 16 0x1200).PC ∧
    decode ((State.reset.jump 0xFFE#16).withFetchWord 16 0x1200).wordAtPC = .ok (.jp 0x200#12) := by decide

theorem witness_FetchChecks :
    (State.reset.jump 0x1FF#16).PC.toNat < 0x200 ∧ (State.reset.jump 0xFFF#16).PC.toNat + 1 > 0xFFF ∧
    (State.reset.jump 0xFFD#16).PC.toNat % 2 = 1 ∧ 0x200 ≤ (State.reset.jump 0xFFE#16).PC.toNat ∧
    (State.reset.jump 0xFFE#16).PC.toNat + 1 ≤ 0xFFF ∧ (State.reset.jump 0xFFE#16).PC.toNat % 2 = 0 := by decide

theorem witness_StepOutsideTheProgramRegion :
    ¬ (0x200 ≤ (State.reset.jump 0x1FF#16).PC.toNat ∧ (State.reset.jump 0x1FF#16).PC.toNat + 1 ≤ 0xFFF) ∧
    ¬ (0x200 ≤ (State.reset.jump 0xFFF#16).PC.toNat ∧ (State.reset.jump 0xFFF#16).PC.toNat + 1 ≤ 0xFFF) ∧
    Fetchable (State.reset.jump 0x200#16).PC ∧ Fetchable (State.reset.jump 0xFFE#16).PC := by decide

theorem witness_StepAtAnOddPC :
    (State.reset.jump 0x201#16).PC.toNat % 2 = 1 ∧ (State.reset.jump 0xFFFF#16).PC.toNat % 2 = 1 := by decide

theorem witness_UndecodableWord : Fetchable State.reset.PC ∧ ∀ i, decode State.reset.wordAtPC ≠ .ok i := by
  have h : decode State.reset.wordAtPC = .error (.unknownOpcode 0x0000#16) := by decide
  exact ⟨by decide, fun i hi => by rw [h] at hi; cases hi⟩

theorem witness_PlacedWord :
    State.reset.mem.wf = true ∧ decode 0xF365#16 = .ok (.ldVxMem 3) ∧ Fetchable State.reset.PC := by decide

theorem witness_StoredWordIsFetchedNext :
    (withI 0x202#16).mem.wf = true ∧ 1 ≤ (1 : Reg).val ∧ (withI 0x202#16).I.toNat = (withI 0x202#16).PC.toNat + 2 ∧
    ∃ t, exec (.ldMemVx 1) (withI 0x202#16) = .next t := ⟨by decide, by decide, by decide, _, rfl⟩

theorem witness_Ret :
    State.reset.stack = [] ∧ ({ State.reset with stack := [0x206#16, 0x300#16] } : State).stack = 0x206#16 :: [0x300#16] := by decide

theorem witness_JpWord : 0x1FFF#16 &&& 0xF000#16 = 0x1000#16 := by decide

theorem witness_Call :
    0x2000#16 &&& 0xF000#16 = 0x2000#16 ∧
    16 ≤ ({ State.reset with stack := List.replicate 16 0x202#16 } : State).stack.length ∧
    ({ State.reset with stack := List.replicate 15 0x202#16 } : State).stack.length < 16 := by decide

/-- The skips: their words, and for each condition a state where it holds and one where it does not. -/
theorem witness_Skips :
    0x3FFF#16 &&& 0xF000#16 = 0x3000#16 ∧ 0x4000#16 &&& 0xF000#16 = 0x4000#16 ∧ 0x5FF0#16 &&& 0xF00F#16 = 0x5000#16 ∧
    0x9010#16 &&& 0xF00F#16 = 0x9000#16 ∧ State.reset.reg 15 = 0#8 ∧ State.reset.reg 15 ≠ 0xFF#8 ∧
    State.reset.reg 0 = State.reset.reg 1 ∧ (withRegs [(0, 1#8)]).reg 0 ≠ (withRegs [(0, 1#8)]).reg 1 := by decide

theorem witness_CallThenReturn :
    ∃ t u, exec (.call 0x300#12) State.reset = .next t ∧ exec .ret t = .next u := ⟨_, _, rfl, rfl⟩

theorem witness_LoadAndLogicWords :
    0x6FFF#16 &&& 0xF000#16 = 0x6000#16 ∧ 0x7000#16 &&& 0xF000#16 = 0x7000#16 ∧ 0x8FF0#16 &&& 0xF00F#16 = 0x8000#16 ∧
    0x8001#16 &&& 0xF00F#16 = 0x8001#16 ∧ 0x8FF2#16 &&& 0xF00F#16 = 0x8002#16 ∧ 0x8F03#16 &&& 0xF00F#16 = 0x8003#16 := by decide

/-- The clauses of 8xy4: the sums 255 and 256. -/
theorem witness_AddReg :
    ((withRegs [(0, 0x80#8), (1, 0x7F#8)]).reg 0).toNat + ((withRegs [(0, 0x80#8), (1, 0x7F#8)]).reg 1).toNat ≤ 255 ∧
    ((withRegs [(0, 0x80#8), (1, 0x80#8)]).reg 0).toNat + ((withRegs [(0, 0x80#8), (1, 0x80#8)]).reg 1).toNat > 255 ∧
    (14 : Reg) ≠ VF := by decide

/-- The clauses of 8xy5 and 8xy7: equal operands, and one less. -/
theorem witness_Subtractions :
    ((withRegs [(0, 5#8), (1, 5#8)]).reg 0).toNat ≥ ((withRegs [(0, 5#8), (1, 5#8)]).reg 1).toNat ∧
    ((withRegs [(0, 4#8), (1, 5#8)]).reg 0).toNat < ((withRegs [(0, 4#8), (1, 5#8)]).reg 1).toNat ∧
    (0 : Reg) ≠ VF := by decide

theorem witness_IndexWords :
    0xAFFF#16 &&& 0xF000#16 = 0xA000#16 ∧ 0xFF29#16 &&& 0xF0FF#16 = 0xF029#16 := by decide

/-- The three ranges of Fx33, at their ends. -/
theorem witness_LdB :
    (withI 0x200#16).mem.wf = true ∧ 0x200 ≤ (withI 0x200#16).I.toNat ∧ (withI 0xFFD#16).I.toNat + 2 ≤ 0xFFF ∧
    (withI 0x1FF#16).I.toNat < 0x200 ∧ 0xFFF < (withI 0xFFE#16).I.toNat + 2 ∧ 0xFFF < (withI 0xFFFF#16).I.toNat + 2 := by decide

/-- The three ranges of Fx55, at their ends. -/
theorem witness_LdMem :
    (withI 0x200#16).mem.wf = true ∧ 0x200 ≤ (withI 0x200#16).I.toNat ∧ (withI 0xFF0#16).I.toNat + (15 : Reg).val ≤ 0xFFF ∧
    (withI 0x1FF#16).I.toNat < 0x200 ∧ 0xFFF < (withI 0xFF1#16).I.toNat + (15 : Reg).val := by decide

/-- The two ranges of Fx65, at their ends. -/
theorem witness_LdVxMem :
    (withI 0x000#16).I.toNat + (15 : Reg).val ≤ 0xFFF ∧ (withI 0xFFF#16).I.toNat + (0 : Reg).val ≤ 0xFFF ∧
    0xFFF < (withI 0x1000#16).I.toNat + (0 : Reg).val ∧ (2 : Reg) ≤ 3 ∧ (3 : Reg) < 4 := by decide

/-- Dxyn: both ranges at their ends; a pixel the sprite covers and one it does not, and a collision. -/
theorem witness_Drw :
    (1#4 : Nibble) ≠ 0#4 ∧ (withI 0xFF1#16).I.toNat + (15#4).toNat ≤ 0x1000 ∧ 0x1000 < (withI 0xFF2#16).I.toNat + (15#4).toNat ∧
    (∃ r < (5#4).toNat, ∃ c < 8, ((withI 0#16).mem.read ((withI 0#16).I.toNat + r)).getLsbD (7 - c) = true ∧
      (((withI 0#16).reg 0).toNat + r) % 32 = (0 : Fin 32).val ∧ (((withI 0#16).reg 0).toNat + c) % 64 = (3 : Fin 64).val) ∧
    (¬ ∃ r < (5#4).toNat, ∃ c < 8, ((withI 0#16).mem.read ((withI 0#16).I.toNat + r)).getLsbD (7 - c) = true ∧
      (((withI 0#16).reg 0).toNat + r) % 32 = (0 : Fin 32).val ∧ (((withI 0#16).reg 0).toNat + c) % 64 = (4 : Fin 64).val) ∧
    goesOn (exec (.drw 0 0 5#4) (State.flipped (withI 0#16) 0 0)) (fun t =>
      (State.flipped (withI 0#16) 0 0).disp.pixel 0 0 && !t.disp.pixel 0 0) = true := by decide

/-- Dxyn on a clear display: whatever the next state t, no pixel goes from on to off. -/
theorem witness_Drw_no_collision (t : State) :
    ¬ ∃ row col, (withI 0#16).disp.pixel row col = true ∧ t.disp.pixel row col = false :=
  fun ⟨row, col, on, _⟩ => Bool.noConfusion (on.symm.trans (Display.pixel_clear row col))

theorem witness_DrawingTwice :
    (List.replicate 15 0xFF#8 : List Byte).length ≤ 15 ∧ ∃ b ∈ (List.replicate 15 0xFF#8 : List Byte), b ≠ 0#8 :=
  ⟨by decide, 0xFF#8, by decide, by decide⟩

theorem witness_KeySkips :
    ((withRegs [(0, 0x0F#8)]).reg 0).toNat = (15 : Key).val ∧ ((withRegs [(0, 0x10#8)]).reg 0).toNat > 0x0F ∧
    (State.holding State.reset 15).key 15 = true ∧ State.reset.key 15 = false := by decide

theorem witness_KeyWaitTakesTheLowestKey :
    (State.holding (State.holding State.reset 15) 14).key 14 = true ∧
    (∀ j : Key, j < 14 → (State.holding (State.holding State.reset 15) 14).key j = false) ∧
    ∀ k : Key, State.reset.key k = false := by decide

theorem witness_KeyWaitHolds :
    Fetchable (atStart 0xF30A).PC ∧ decode (atStart 0xF30A).wordAtPC = .ok (.ldVxK 3) ∧
    (∀ k : Key, (atStart 0xF30A).key k = false) ∧
    (∀ t ∈ [Transaction.step, .tickTimers, .keyUp 3, .displaySnapshot, .memoryView],
      t = .step ∨ t = .tickTimers ∨ (∃ k, t = .keyUp k) ∨ t = .displaySnapshot ∨ t = .memoryView) ∧
    (List.replicate 3584 0#8).length + 0x200 ≤ 4096 := by
  refine ⟨by decide, by decide, by decide, by decide, by rw [List.length_replicate]⟩

theorem witness_TimerWords :
    0xFF07#16 &&& 0xF0FF#16 = 0xF007#16 ∧ 0xF015#16 &&& 0xF0FF#16 = 0xF015#16 ∧ 0xF418#16 &&& 0xF0FF#16 = 0xF018#16 := by decide

/-- The reserved region past the font, at both ends. -/
theorem witness_ResetRegions :
    (80 < 0x200 ∧ params.fontBase + 80 ≤ 80) ∧ (0x1FF < 0x200 ∧ params.fontBase + 80 ≤ 0x1FF) ∧ 0x200 ≤ 0x200 := by decide

theorem witness_Invariant : (atStart 0x00E0).Inv ∧ ∃ t, step (atStart 0x00E0) = .next t :=
  ⟨⟨by decide, fun _ _ => by
    show Memory.read [(0x201, 0xE0#8)] _ = _
    rw [Memory.read, Memory.listed, if_neg (by simp only [progBase] at *; omega)]; rfl, by decide⟩, _, rfl⟩

theorem witness_Reachable : Reachable State.reset ∧ Reachable (transact .tickTimers State.reset).1 :=
  ⟨.new, .after _ .new⟩

/-- A next state for the statements over all instructions, and one past each exception that they name. -/
theorem witness_WholeMachine :
    (∃ t, exec (.ldDtVx 0) State.reset = .next t) ∧ (∃ t, exec (.ldStVx 0) State.reset = .next t) ∧
    (∃ t, exec .cls State.reset = .next t) ∧ (∃ t, exec (.ldBVx 0) (withI 0x200#16) = .next t) ∧
    (∀ x, Instr.cls ≠ .ldDtVx x) ∧ (∀ x, Instr.cls ≠ .ldStVx x) ∧ (∀ x, Instr.cls ≠ .ldBVx x) ∧ Instr.cls ≠ .ret ∧
    (∀ x y n, Instr.ret ≠ .drw x y n) ∧ (∀ nnn, Instr.cls ≠ .ldI nnn) :=
  ⟨⟨_, rfl⟩, ⟨_, rfl⟩, ⟨_, rfl⟩, ⟨_, rfl⟩, nofun, nofun, nofun, nofun, nofun, nofun⟩

theorem witness_NextPC :
    (∃ t, exec (.ldVxK 0) State.reset = .next t) ∧ (∀ k, State.reset.key k = false) ∧
    (∃ t, exec (.ldVxK 0) (State.holding State.reset 15) = .next t) ∧ (State.holding State.reset 15).key 15 = true ∧
    (∃ t, exec (.skp 0) State.reset = .next t) := ⟨⟨_, rfl⟩, by decide, ⟨_, rfl⟩, by decide, ⟨_, rfl⟩⟩

theorem witness_Errors :
    step State.reset = .fault (.unknownOpcode 0x0000#16) ∧
    loadProgram (List.replicate 3585 0#8) State.reset = .fault (.outOfBounds 0x1000) ∧
    (∀ t ∈ [Transaction.step, .tickTimers, .keyDown 3, .keyUp 3, .displaySnapshot, .memoryView],
      t = .step ∨ t = .tickTimers ∨ (∃ k, t = .keyDown k) ∨ (∃ k, t = .keyUp k) ∨ t = .displaySnapshot ∨ t = .memoryView) := by
  refine ⟨rfl, ?_, by decide⟩
  simp only [loadProgram, List.length_replicate]; rfl

theorem witness_Loads :
    (List.replicate 3585 0#8).length + 0x200 > 4096 ∧ (List.replicate 3584 0#8).length ≤ 3584 ∧
    3583 < (List.replicate 3584 0#8).length ∧ 4095 < 4096 := by
  simp only [List.length_replicate]; omega

/-- The released key of the press and release. -/
theorem witness_KeyEvents : State.reset.key 15 = false ∧ State.reset.key 0 = false := by decide

/-- Other settings of R6 all at once, the font at the top of the reserved region. -/
def others : Params := { params with
  fontBase := 0x1B0, reservedFill := 0xAA#8, fontWritePolicy := .ignore, fetchAlignCheck := false, dxy0Policy := .noopVf0,
  spriteBitOrder := .lsbLeft, ldstIncrementsI := true, fx1eSetsVf := true, keyWaitSelect := .any, keyIndexPolicy := .lowNibble }

/-- The settings of each clause, and data for it at the ends of its ranges. -/
theorem witness_Parameters :
    (others.fontFits ∧ (List.replicate 3584 0#8).length ≤ 3584) ∧
    (others.fontWritePolicy = .ignore ∧ (withI 0x1FF#16).mem.wf = true ∧
      (withI 0xFF0#16).I.toNat + (15 : Reg).val ≤ 0xFFF ∧ 0x200 ≤ (withI 0x1FF#16).I.toNat + (1 : Reg).val ∧
      0xFFF < (withI 0xFF1#16).I.toNat + (15 : Reg).val ∧
      (withI 0x1FF#16).I.toNat + 2 ≤ 0xFFF ∧ 0x200 ≤ (withI 0x1FF#16).I.toNat + 1 ∧ 0x200 ≤ (withI 0x200#16).I.toNat ∧
      0xFFF < (withI 0xFFE#16).I.toNat + 2) ∧
    (others.fetchAlignCheck = false ∧ 0x200 ≤ (State.reset.jump 0x201#16).PC.toNat ∧
      (State.reset.jump 0xFFD#16).PC.toNat + 1 ≤ 0xFFF) ∧
    fieldFamily 0xD010#16 = 0xD ∧
    (others.ldstIncrementsI = true ∧ (∃ t, ldVxMemWith others 15 (withI 0xFF0#16) = .next t) ∧
      ∃ t, ldMemVxWith others 15 (withI 0xFF0#16) = .next t) ∧
    others.fx1eSetsVf = true ∧ (others.keyWaitSelect = .any ∧ ∃ k, (State.holding State.reset 3).key k = true) ∧
    others.keyIndexPolicy = .lowNibble :=
  ⟨⟨by decide, by rw [List.length_replicate]⟩, by decide, by decide, by decide, ⟨rfl, ⟨_, rfl⟩, ⟨_, rfl⟩⟩, rfl,
    ⟨rfl, 3, by decide⟩, rfl⟩

/-- R294 at those settings: a load leaves the font at 0x1B0 and the fill below it (glyph F of R64 ends the region). -/
theorem test_load_reseeds_the_given_font :
    goesOn (loadProgramWith others [] State.reset) (fun t =>
      [t.mem.read 0x1B0, t.mem.read 0x1FF, t.mem.read 0x000, t.mem.read 0x1AF] == [0xF0#8, 0x80#8, 0xAA#8, 0xAA#8]) = true := by
  have font : ∀ a < memSize, (constructedMemory others).read a = constructedByte others a :=
    fun _ ha => read_constructedMemory others ha
  simp only [loadProgramWith, goesOn, List.length_nil, Memory.writeBytes, resetWith_mem]
  rw [if_neg (by decide)]
  simp only [font 0x1B0 (by decide), font 0x1FF (by decide), font 0x000 (by decide), font 0x1AF (by decide)]
  decide

end Sys2Proof.Tests
end

section
/-! The fields of a word as quotients and remainders (R92), and the sub-opcode families 8, E and F (R98, R99, R100). -/

namespace Sys2Proof

/-! ## Fields of the word as numbers -/

theorem toNat_extractLsb'_eq_div_mod (w : Word) (start len : Nat) :
    (w.extractLsb' start len).toNat = w.toNat / 2 ^ start % 2 ^ len := by
  rw [BitVec.extractLsb'_toNat, Nat.shiftRight_eq_div_pow]

theorem toNat_extractLsb'_zero (w : Word) (len : Nat) : (w.extractLsb' 0 len).toNat = w.toNat % 2 ^ len := by
  rw [toNat_extractLsb'_eq_div_mod, pow_zero, Nat.div_one]

/-- The family is the top nibble, so the quotient needs no remainder. -/
theorem fieldFamily_eq_div (w : Word) : fieldFamily w = w.toNat / 4096 := by
  have top : w.toNat / 4096 < 16 := Nat.div_lt_of_lt_mul w.isLt
  exact (toNat_extractLsb'_eq_div_mod w 12 4).trans (Nat.mod_eq_of_lt top)

theorem val_fieldX (w : Word) : (fieldX w).val = w.toNat / 256 % 16 := toNat_extractLsb'_eq_div_mod w 8 4

theorem val_fieldY (w : Word) : (fieldY w).val = w.toNat / 16 % 16 := toNat_extractLsb'_eq_div_mod w 4 4

theorem toNat_fieldN (w : Word) : (fieldN w).toNat = w.toNat % 16 :=
  toNat_extractLsb'_zero w 4

theorem toNat_fieldKK (w : Word) : (fieldKK w).toNat = w.toNat % 256 :=
  toNat_extractLsb'_zero w 8

theorem toNat_fieldNNN (w : Word) : (fieldNNN w).toNat = w.toNat % 4096 :=
  toNat_extractLsb'_zero w 12

/-- Settles O1: each field is one slice of the word, and a slice is a quotient's remainder. -/
theorem fieldsAreTheBitsOfTheWord : Obligations.FieldsAreTheBitsOfTheWord := fun w =>
  ⟨fieldFamily_eq_div w, val_fieldX w, val_fieldY w, toNat_fieldN w, toNat_fieldKK w, toNat_fieldNNN w⟩

/-! ## The families that decode by a sub-opcode -/

theorem decode_of_family8 {w : Word} (hf : fieldFamily w = 0x8) :
    decode w = decodeFamily8 w (fieldX w) (fieldY w) := by
  simp only [decode, decodeWith, hf]

theorem decode_of_familyE {w : Word} (hf : fieldFamily w = 0xE) : decode w = decodeFamilyE w (fieldX w) := by
  simp only [decode, decodeWith, hf]

theorem decode_of_familyF {w : Word} (hf : fieldFamily w = 0xF) : decode w = decodeFamilyF w (fieldX w) := by
  simp only [decode, decodeWith, hf]

theorem decodeFamily8_unlisted {w : Word} (x y : Reg)
    (h : (fieldN w).toNat ∉ [0x0, 0x1, 0x2, 0x3, 0x4, 0x5, 0x6, 0x7, 0xE]) :
    decodeFamily8 w x y = .error (.unknownOpcode w) := by
  unfold decodeFamily8
  split
  case h_10 => rfl
  all_goals next listed => exact absurd h (by rw [listed]; decide)

theorem decodeFamilyE_unlisted {w : Word} (x : Reg) (h : (fieldKK w).toNat ∉ [0x9E, 0xA1]) :
    decodeFamilyE w x = .error (.unknownOpcode w) := by
  unfold decodeFamilyE
  split
  case h_3 => rfl
  all_goals next listed => exact absurd h (by rw [listed]; decide)

theorem decodeFamilyF_unlisted {w : Word} (x : Reg)
    (h : (fieldKK w).toNat ∉ [0x07, 0x0A, 0x15, 0x18, 0x1E, 0x29, 0x33, 0x55, 0x65]) :
    decodeFamilyF w x = .error (.unknownOpcode w) := by
  unfold decodeFamilyF
  split
  case h_10 => rfl
  all_goals next listed => exact absurd h (by rw [listed]; decide)

/-- The seven nibbles R98 leaves to UnknownOpcode are none of those it lists. -/
theorem not_mem_listed8_of_mem_rest {n : Nat} (h : n ∈ [0x8, 0x9, 0xA, 0xB, 0xC, 0xD, 0xF]) :
    n ∉ [0x0, 0x1, 0x2, 0x3, 0x4, 0x5, 0x6, 0x7, 0xE] := by
  revert n; decide

/-- Settles O4: a listed sub-opcode is a row of the opcode table, whose mask fixes the family and the sub-opcode; an
unlisted one falls to the last branch of its family's decoder. -/
theorem familiesEightEFDecodeTheListedSubopcodes : Obligations.FamiliesEightEFDecodeTheListedSubopcodes := fun w =>
  have rest8 (hf : fieldFamily w = 0x8) (hn : (fieldN w).toNat ∈ [0x8, 0x9, 0xA, 0xB, 0xC, 0xD, 0xF]) :
      decode w = .error (.unknownOpcode w) :=
    (decode_of_family8 hf).trans (decodeFamily8_unlisted _ _ (not_mem_listed8_of_mem_rest hn))
  have restE (hf : fieldFamily w = 0xE) (hk : (fieldKK w).toNat ∉ [0x9E, 0xA1]) :
      decode w = .error (.unknownOpcode w) :=
    (decode_of_familyE hf).trans (decodeFamilyE_unlisted _ hk)
  have restF (hf : fieldFamily w = 0xF)
      (hk : (fieldKK w).toNat ∉ [0x07, 0x0A, 0x15, 0x18, 0x1E, 0x29, 0x33, 0x55, 0x65]) :
      decode w = .error (.unknownOpcode w) :=
    (decode_of_familyF hf).trans (decodeFamilyF_unlisted _ hk)
  ⟨decode_ldReg, decode_orReg, decode_andReg, decode_xorReg, decode_addReg, decode_sub, decode_shr, decode_subn,
    decode_shl, rest8, decode_skp, decode_sknp, restE, decode_ldVxDt, decode_ldVxK, decode_ldDtVx, decode_ldStVx,
    decode_addIVx, decode_ldFVx, decode_ldBVx, decode_ldMemVx, decode_ldVxMem, restF⟩

end Sys2Proof
end

section
/-! The execution cycle: the fetch and the step by the word at PC, errors, the next PC of every instruction and the key
wait (R122 to R127, R132). -/

namespace Sys2Proof.Machine

/-! ## Transactions by their outcome (R127) -/

@[simp] theorem settle_next (s t : State) : settle s (.next t) = (t, .ok) := rfl

@[simp] theorem settle_fault (s : State) (e : Fault) : settle s (.fault e) = (s, .err e) := rfl

theorem transact_step_of_next {s t : State} (h : step s = .next t) : transact .step s = (t, .ok) := by
  rw [transact, h, settle_next]

theorem transact_step_of_fault {s : State} {e : Fault} (h : step s = .fault e) :
    transact .step s = (s, .err e) := by
  rw [transact, h, settle_fault]

/-- Settles O48: a failed step's outcome carries no state, and the transaction answers the one it was given. -/
theorem errorsLeaveTheStateAsItWas : Obligations.ErrorsLeaveTheStateAsItWas := fun _ _ => transact_step_of_fault

/-! ## The fetch by the PC (R124) -/

theorem toNat_wordOfBytes (hi lo : Byte) : (wordOfBytes hi lo).toNat = 256 * hi.toNat + lo.toNat := by
  rw [wordOfBytes, BitVec.toNat_append, ← Nat.shiftLeft_add_eq_or_of_lt lo.isLt, Nat.shiftLeft_eq, Nat.mul_comm]

theorem fetch_of_outside {s : State} (check : Bool) (out : s.PC.toNat < progBase ∨ s.PC.toNat + 1 > 0xFFF) :
    fetch check s = .error (.outOfBounds s.PC.toNat) := if_pos out

/-- With the alignment check on, an odd PC is refused wherever it points. -/
theorem fetch_of_odd {s : State} (odd : s.PC.toNat % 2 = 1) : fetch true s = .error (.outOfBounds s.PC.toNat) := by
  by_cases out : s.PC.toNat < progBase ∨ s.PC.toNat + 1 > 0xFFF
  · exact fetch_of_outside true out
  · exact (if_neg out).trans (if_pos ⟨rfl, (lowBit_eq_odd _).2 odd⟩)

/-- With the alignment check off, the bounds alone decide. -/
theorem fetch_unaligned_of_inside {s : State} (low : progBase ≤ s.PC.toNat) (high : s.PC.toNat + 1 ≤ 0xFFF) :
    fetch false s = .ok s.wordAtPC :=
  (if_neg (by omega)).trans (if_neg (by simp))

/-- Settles O8: the three clauses are the three branches of the fetch. -/
theorem fetchChecksThenReadsHighByteFirst : Obligations.FetchChecksThenReadsHighByteFirst := by
  refine fun check s => ⟨fetch_of_outside check, ?_, fun low high aligned => ⟨s.wordAtPC, ?_, toNat_wordOfBytes _ _⟩⟩
  · rintro - - rfl odd
    exact fetch_of_odd odd
  · obtain rfl | even := aligned
    · exact fetch_unaligned_of_inside low high
    · exact fetch_of_fetchable ⟨low, high, even⟩ check

/-! ## The step by the fetched word (R121, R122, R125) -/

theorem step_of_fetch_error {s : State} {e : Fault} (h : fetch params.fetchAlignCheck s = .error e) :
    step s = .fault e := by
  simp only [step, fetchDecode, h, raise]

theorem step_of_decode {s : State} {i : Instr} (pc : Fetchable s.PC) (h : decode s.wordAtPC = .ok i) :
    step s = exec i s := by
  rw [decode] at h
  simp only [step, fetchDecode_of_fetchable pc, h]

theorem step_of_undecodable {s : State} {r : Reject} (pc : Fetchable s.PC) (h : decode s.wordAtPC = .error r) :
    step s = .fault (.unknownOpcode s.wordAtPC) := by
  rw [decode] at h
  simp only [step, fetchDecode_of_fetchable pc, h, raise]

/-- Settles O9: outside the program region the fetch fails on its bounds; at a fetchable PC the decoder answers an
instruction, which runs, or none. -/
theorem stepOutsideTheProgramRegionIsOutOfBounds : Obligations.StepOutsideTheProgramRegionIsOutOfBounds := by
  refine fun s => ⟨fun out => step_of_fetch_error (fetch_of_outside _ (by rw [progBase]; omega)), fun pc => ?_⟩
  cases h : decode s.wordAtPC with
  | ok i => exact .inl ⟨i, rfl, step_of_decode pc h⟩
  | error r => exact .inr (step_of_undecodable pc h)

/-- Settles O11: a decoder that answers no instruction answers a rejection, on which the step fails. -/
theorem undecodableWordRaisesUnknownOpcode : Obligations.UndecodableWordRaisesUnknownOpcode := by
  intro s pc noInstr
  cases h : decode s.wordAtPC with
  | ok i => exact absurd h (noInstr i)
  | error r =>
    have failed := step_of_undecodable pc h
    exact ⟨failed, transact_step_of_fault failed⟩

/-! ## The key wait of one step (R132, R234) -/

theorem exec_ldVxK_of_released {s : State} (x : Reg) (released : ∀ k, s.key k = false) :
    exec (.ldVxK x) s = .next s := by
  change ldVxKWith params x s = _
  rw [ldVxKWith, pressed_eq_nil.2 released]
  rfl

theorem exec_ldVxK_of_pressed {s : State} (x : Reg) {k : Key} {rest : List Key} (h : s.pressed = k :: rest) :
    exec (.ldVxK x) s = .next (s.setReg x (BitVec.ofNat 8 k.val)).advance := by
  change ldVxKWith params x s = _
  rw [ldVxKWith, h]
  rfl

/-! ## The next PC (R126) -/

section
variable {s t u : State}

/-- An instruction whose last act is the default advance, with the PC untouched before it. -/
theorem pcAdvanced_of_next_advance (h : (.next u.advance : Result) = .next t) (pc : u.PC = s.PC) :
    PCAdvanced s t := by
  cases h
  rw [PCAdvanced, advance_PC_toNat, pc]

theorem pcSkipped_of_next_skipIf {c : Bool} {p : Prop} (hc : c = true ↔ p)
    (h : (.next (s.skipIf c) : Result) = .next t) : PCSkipped s t p := by
  cases h
  rw [PCSkipped, skipIf_PC_toNat, ← hc]
  exact ⟨fun yes => if_pos yes, fun no => if_neg no⟩

/-- The key that Ex9E and ExA1 name at the default policy is the value of Vx. -/
theorem val_of_keyOperand_fault {v : Byte} {k : Key} (h : keyOperand .fault v = .ok k) : k.val = v.toNat := by
  simp only [keyOperand] at h
  split at h
  · cases h; rfl
  · cases h

theorem keySkipWith_next {p : Params} {wanted : Bool} {x : Reg} (h : keySkipWith p wanted x s = .next t) :
    ∃ k, keyOperand p.keyIndexPolicy (s.reg x) = .ok k ∧ (.next (s.skipIf (s.key k == wanted)) : Result) = .next t := by
  unfold keySkipWith at h
  split at h
  · cases h
  · exact ⟨_, ‹_›, h⟩

theorem pcSkipped_of_keySkip {wanted : Bool} {x : Reg} (h : keySkipWith params wanted x s = .next t) :
    PCSkipped s t (∃ k : Key, k.val = (s.reg x).toNat ∧ s.key k = wanted) := by
  obtain ⟨k, operand, h⟩ := keySkipWith_next h
  have named : k.val = (s.reg x).toNat := val_of_keyOperand_fault operand
  refine pcSkipped_of_next_skipIf (beq_iff_eq.trans ⟨fun level => ⟨k, named, level⟩, ?_⟩) h
  rintro ⟨j, hj, level⟩
  rwa [← Fin.ext (hj.trans named.symm)]

theorem stack_head_of_execRet (h : execRet s = .next t) : s.stack.head? = some t.PC := by
  unfold execRet at h
  cases hs : s.stack with
  | nil => rw [hs] at h; cases h
  | cons a rest => rw [hs] at h; cases h; rfl

theorem pc_of_execCall {nnn : Addr} (h : execCall nnn s = .next t) : t.PC.toNat = nnn.toNat := by
  unfold execCall at h
  split at h
  · cases h
  · cases h; exact addrOperand_toNat nnn

theorem pc_of_execJpV0 {nnn : Addr} (h : execJpV0 nnn s = .next t) :
    t.PC.toNat = (nnn.toNat + (s.reg 0).toNat) % 65536 := by
  cases h
  have := nnn.isLt
  have := (s.reg 0).isLt
  rw [State.jump_PC, jumpV0Target_toNat]
  omega

theorem pcAdvanced_of_drw {p : Params} {x y : Reg} {n : Nibble} (h : drwWith p x y n s = .next t) :
    PCAdvanced s t := by
  obtain ⟨-, sprite, drawn, -, -, rfl⟩ := drwWith_next h
  exact advance_PC_toNat s

theorem pcAdvanced_of_storeAtIndex {p : Params} {bs : List Byte} {w : Word} (h : storeAtIndex p bs w s = .next t) :
    PCAdvanced s t := by
  obtain ⟨-, rfl⟩ := storeAtIndex_next h
  exact advance_PC_toNat s

theorem pcAdvanced_of_ldVxMem {p : Params} {x : Reg} (h : ldVxMemWith p x s = .next t) : PCAdvanced s t := by
  obtain ⟨-, rfl⟩ := ldVxMemWith_next h
  exact pcAdvanced_of_next_advance rfl (by simp)

/-- The wait leaves the PC; a pressed key, whichever is taken, advances it. -/
theorem pc_of_exec_ldVxK {x : Reg} (h : exec (.ldVxK x) s = .next t) :
    ((∀ k, s.key k = false) → t.PC = s.PC) ∧ ((∃ k, s.key k = true) → PCAdvanced s t) := by
  constructor
  · intro released
    rw [exec_ldVxK_of_released x released] at h
    cases h; rfl
  · rintro ⟨j, pressed⟩
    obtain ⟨k, rest, hk⟩ := List.exists_cons_of_ne_nil (List.ne_nil_of_mem (mem_pressed.2 pressed))
    rw [exec_ldVxK_of_pressed x hk] at h
    exact pcAdvanced_of_next_advance h rfl

end

/-- Settles O47: the jumps, calls, returns, skips and the key wait one by one, then the instructions that check
addresses first; every other one ends in the default advance. -/
theorem everyInstructionCommitsItsNextPC : Obligations.EveryInstructionCommitsItsNextPC := by
  refine ⟨fun i s t h => ?_, fun s e h => by rw [transact_step_of_fault h]⟩
  cases i with
  | jp nnn => cases h; exact addrOperand_toNat nnn
  | call nnn => exact pc_of_execCall h
  | ret => exact stack_head_of_execRet h
  | jpV0 nnn => exact pc_of_execJpV0 h
  | seImm x kk => exact pcSkipped_of_next_skipIf beq_iff_eq h
  | sneImm x kk => exact pcSkipped_of_next_skipIf bne_iff_ne h
  | seReg x y => exact pcSkipped_of_next_skipIf beq_iff_eq h
  | sneReg x y => exact pcSkipped_of_next_skipIf bne_iff_ne h
  | skp x => exact pcSkipped_of_keySkip h
  | sknp x => exact pcSkipped_of_keySkip h
  | ldVxK x => exact pc_of_exec_ldVxK h
  | drw x y n => exact pcAdvanced_of_drw h
  | ldBVx x => exact pcAdvanced_of_storeAtIndex h
  | ldMemVx x => exact pcAdvanced_of_storeAtIndex h
  | ldVxMem x => exact pcAdvanced_of_ldVxMem h
  | _ => exact pcAdvanced_of_next_advance h rfl

/-! ## The key wait across transactions (R132) -/

/-- PC is at an Fx0A and no key is pressed. -/
def AwaitsKey (x : Reg) (s : State) : Prop :=
  Fetchable s.PC ∧ decode s.wordAtPC = .ok (.ldVxK x) ∧ ∀ k, s.key k = false

/-- The transactions that neither press a key nor replace the program. -/
abbrev KeepsTheWait (t : Transaction) : Prop :=
  t = .step ∨ t = .tickTimers ∨ (∃ k, t = .keyUp k) ∨ t = .displaySnapshot ∨ t = .memoryView

/-- `t` is `s` but for the two timers. -/
def EqUpToTimers (s t : State) : Prop := ∃ dt st, t = { s with DT := dt, ST := st }

theorem EqUpToTimers.refl (s : State) : EqUpToTimers s s := ⟨s.DT, s.ST, rfl⟩

theorem EqUpToTimers.trans {s t u : State} (h : EqUpToTimers s t) (h' : EqUpToTimers t u) : EqUpToTimers s u := by
  obtain ⟨dt, st, rfl⟩ := h
  obtain ⟨dt, st, rfl⟩ := h'
  exact ⟨dt, st, rfl⟩

/-- The wait reads no timer. -/
theorem AwaitsKey.of_eqUpToTimers {x : Reg} {s t : State} (wait : AwaitsKey x s) (h : EqUpToTimers s t) :
    AwaitsKey x t := by
  obtain ⟨dt, st, rfl⟩ := h
  exact wait

theorem step_of_awaitsKey {x : Reg} {s : State} (wait : AwaitsKey x s) : step s = .next s := by
  obtain ⟨pc, decoded, released⟩ := wait
  rw [step_of_decode pc decoded, exec_ldVxK_of_released x released]

theorem key_keyDown (s : State) (k j : Key) : (keyDown k s).key j = if k = j then true else s.key j := by
  simp [keyDown, State.key, Vector.getElem_set, Fin.ext_iff]

theorem keyUp_of_released {s : State} {k : Key} (h : s.key k = false) : keyUp k s = s := by
  have same : s.keys.set k false = s.keys := by
    rw [← h]
    exact Vector.set_getElem_self _
  rw [keyUp, same]

theorem transact_of_awaitsKey {x : Reg} {s : State} {t : Transaction} (wait : AwaitsKey x s) (ht : KeepsTheWait t) :
    EqUpToTimers s (transact t s).1 := by
  obtain rfl | rfl | ⟨k, rfl⟩ | rfl | rfl := ht
  · rw [transact_step_of_next (step_of_awaitsKey wait)]
    exact .refl s
  · exact ⟨_, _, rfl⟩
  · obtain ⟨-, -, released⟩ := wait
    rw [transact, keyUp_of_released (released k)]
    exact .refl s
  · exact .refl s
  · exact .refl s

theorem transactAll_of_awaitsKey {x : Reg} (ts : List Transaction) {s : State} (wait : AwaitsKey x s)
    (hts : ∀ t ∈ ts, KeepsTheWait t) : EqUpToTimers s (transactAll ts s) := by
  induction ts generalizing s with
  | nil => exact .refl s
  | cons t ts ih =>
    obtain ⟨ht, hts⟩ := List.forall_mem_cons.1 hts
    have one := transact_of_awaitsKey wait ht
    exact one.trans (ih (wait.of_eqUpToTimers one) hts)

/-- After `key_down(k)` the step takes k: no other key is down. -/
theorem step_keyDown_of_awaitsKey {x : Reg} {s : State} (wait : AwaitsKey x s) (k : Key) :
    step (keyDown k s) = .next ((keyDown k s).setReg x (BitVec.ofNat 8 k.val)).advance := by
  obtain ⟨pc, decoded, released⟩ := wait
  have down : (keyDown k s).key k = true := by rw [key_keyDown, if_pos rfl]
  have lower : ∀ j < k, (keyDown k s).key j = false := fun j hj => by
    rw [key_keyDown, if_neg hj.ne', released j]
  obtain ⟨rest, pressed⟩ := pressed_head down lower
  have runs : step (keyDown k s) = exec (.ldVxK x) (keyDown k s) := step_of_decode (s := keyDown k s) pc decoded
  rw [runs, exec_ldVxK_of_pressed x pressed]

theorem loadProgram_of_fits {bytes : List Byte} (s : State) (fits : bytes.length + progBase ≤ memSize) :
    loadProgram bytes s = .next { resetCore s with mem := (resetCore s).mem.writeBytes progBase bytes } :=
  if_neg (Nat.not_lt.2 fits)

/-- Settles O38: the waiting state is kept up to its timers by every listed transaction, by induction over the sequence;
the pressed key is the only one down when the next step reads the keypad. -/
theorem keyWaitHoldsUntilAKeyIsPressed : Obligations.KeyWaitHoldsUntilAKeyIsPressed := by
  intro x s pc decoded released
  have wait : AwaitsKey x s := ⟨pc, decoded, released⟩
  have stutter := step_of_awaitsKey wait
  refine ⟨stutter, transact_step_of_next stutter, fun ts hts => ?_, fun k => ?_, rfl, fun bytes fits => ?_⟩
  · obtain ⟨dt, st, h⟩ := transactAll_of_awaitsKey ts wait hts
    rw [h]
    exact ⟨rfl, rfl, rfl, rfl, rfl, rfl, rfl⟩
  · have byte : k.val % 256 = k.val := Nat.mod_eq_of_lt (by omega)
    exact ⟨_, step_keyDown_of_awaitsKey wait k, pcAdvanced_of_next_advance rfl rfl, by simp [byte]⟩
  · rw [transact, loadProgram_of_fits s fits, settle_next]
    rfl

end Sys2Proof.Machine
end

section
/-! Control flow: return, jump, call and the skips on registers and immediates (R143 to R149). -/

namespace Sys2Proof.Machine

/-! ## The frames of a jump, a skip and a change of the call stack -/

/-- `t` is `s` but for the PC, the call stack and the model's own count of draws. -/
abbrev OnlyStackAndPC (s t : State) : Prop :=
  KeepsRegs s t [] ∧ KeepsMemory s t ∧ t.I = s.I ∧ t.disp = s.disp ∧ t.DT = s.DT ∧ t.ST = s.ST ∧ t.keys = s.keys

theorem onlyStackAndPC_jump (s : State) (stack : List Word) (w : Word) :
    OnlyStackAndPC s ({ s with stack := stack }.jump w) :=
  ⟨fun _ _ => rfl, fun _ => rfl, rfl, rfl, rfl, rfl, rfl⟩

theorem onlyRegs_jump (s : State) (w : Word) : OnlyRegs s (s.jump w) [] :=
  ⟨fun _ _ => rfl, fun _ => rfl, rfl, rfl, rfl, rfl, rfl, rfl⟩

/-- Either branch of a skip is a jump. -/
theorem onlyRegs_skipIf (s : State) (c : Bool) : OnlyRegs s (s.skipIf c) [] := by
  cases c with
  | false => exact onlyRegs_jump s _
  | true => exact onlyRegs_jump s _

/-! ## RET (R143) -/

theorem decode_ret : decode 0x00EE#16 = .ok .ret := rfl

theorem exec_ret_of_nil {s : State} (h : s.stack = []) : exec .ret s = .fault .stackUnderflow := by
  simp only [exec, execRet, h, pop, raise]

theorem exec_ret_of_cons {s : State} {a : Word} {rest : List Word} (h : s.stack = a :: rest) :
    exec .ret s = .next ({ s with stack := rest }.jump a) := by
  simp only [exec, execRet, h, pop]

/-- Settles O14: the two forms of the stack are the two branches of the pop. -/
theorem retPopsTheLastReturnAddress : Obligations.RetPopsTheLastReturnAddress := by
  refine ⟨?_, fun _ => exec_ret_of_nil, fun s a rest h => ?_⟩
  · rintro _ rfl
    exact decode_ret
  · exact ⟨_, exec_ret_of_cons h, rfl, rfl, onlyStackAndPC_jump s rest a⟩

/-! ## JP (R144) -/

/-- Settles O15: JP is a jump to the zero-extended nnn. -/
theorem jpSetsThePC : Obligations.JpSetsThePC :=
  ⟨fun _ => decode_jp, fun nnn s => ⟨s.jump (addrOperand nnn), rfl, addrOperand_toNat nnn, onlyRegs_jump s _⟩⟩

/-! ## CALL (R145) -/

theorem push_of_full {stack : List Word} (w : Word) (h : stackDepth ≤ stack.length) : push stack w = none := if_pos h

theorem push_of_room {stack : List Word} (w : Word) (h : stack.length < stackDepth) :
    push stack w = some (w :: stack) :=
  if_neg (Nat.not_le.2 h)

theorem exec_call_of_full {s : State} (nnn : Addr) (h : stackDepth ≤ s.stack.length) :
    exec (.call nnn) s = .fault .stackOverflow := by
  simp only [exec, execCall, push_of_full _ h, raise]

theorem exec_call_of_room {s : State} (nnn : Addr) (h : s.stack.length < stackDepth) :
    exec (.call nnn) s
      = .next ({ s with stack := u16 (s.PC.toNat + 2) :: s.stack }.jump (addrOperand nnn)) := by
  simp only [exec, execCall, push_of_room _ h]

/-- Settles O16: a full stack and one with room are the two branches of the push. -/
theorem callPushesTheReturnAddress : Obligations.CallPushesTheReturnAddress := by
  refine ⟨fun _ => decode_call, fun nnn _ => exec_call_of_full nnn, fun nnn s room => ?_⟩
  exact ⟨_, u16 (s.PC.toNat + 2), exec_call_of_room nnn room, addrOperand_toNat nnn, rfl, u16_add_toNat s.PC.toNat 2,
    onlyStackAndPC_jump s _ _⟩

/-! ## The skips (R146 to R149) -/

/-- An instruction that is a skip completes, with the PC and the frame that the skips' statements ask for. -/
theorem skip_completes {s : State} {i : Instr} {c : Bool} {p : Prop} (hi : exec i s = .next (s.skipIf c))
    (hc : c = true ↔ p) : ∃ t, exec i s = .next t ∧ PCSkipped s t p ∧ OnlyRegs s t [] :=
  ⟨_, hi, pcSkipped_of_next_skipIf hc rfl, onlyRegs_skipIf s c⟩

/-- Settles O17: both are skips, on the comparison of Vx with kk and on its opposite. -/
theorem skipsOnImmediateCompare : Obligations.SkipsOnImmediateCompare :=
  ⟨fun _ => decode_seImm, fun _ => decode_sneImm, fun _ _ _ =>
    ⟨skip_completes rfl beq_iff_eq, skip_completes rfl bne_iff_ne⟩⟩

/-- Settles O18: both are skips, on the comparison of Vx with Vy and on its opposite. -/
theorem skipsOnRegisterCompare : Obligations.SkipsOnRegisterCompare :=
  ⟨fun _ => decode_seReg, fun _ => decode_sneReg, fun _ _ _ =>
    ⟨skip_completes rfl beq_iff_eq, skip_completes rfl bne_iff_ne⟩⟩

end Sys2Proof.Machine
end

section
/-! The loads, the immediate add and the logic on registers: the instructions that write one register and no flag
(R163 to R168). -/

namespace Sys2Proof.Machine

/-! ## Writing one register and going on -/

theorem onlyRegs_setReg_advance (s : State) (x : Reg) (b : Byte) : OnlyRegs s (s.setReg x b).advance [x] := by
  refine ⟨fun y hy => ?_, fun _ => rfl, rfl, rfl, rfl, rfl, rfl, rfl⟩
  rw [State.reg_advance, State.reg_setReg, if_neg fun e => hy (List.mem_singleton.2 e.symm)]

/-- An instruction that loads `b` into Vx completes, with the PC and the frame that the statements ask for, and with
whatever a state that holds `b` in Vx has. -/
theorem loadReg_completes {s : State} {i : Instr} {x : Reg} {b : Byte} {p : State → Prop}
    (hi : exec i s = loadReg x b s) (hp : ∀ t, t.reg x = b → p t) :
    ∃ t, exec i s = .next t ∧ p t ∧ PCAdvanced s t ∧ OnlyRegs s t [x] := by
  refine ⟨(s.setReg x b).advance, hi, hp _ ?_, advance_PC_toNat s, onlyRegs_setReg_advance s x b⟩
  rw [State.reg_advance, State.reg_setReg, if_pos rfl]

/-! ## Loads and the immediate add (R163 to R165) -/

/-- Settles O21: each loads one byte; the immediate add loads the sum mod 256. -/
theorem loadsAndImmediateAdd : Obligations.LoadsAndImmediateAdd := by
  refine ⟨fun _ => decode_ldImm, fun _ => decode_addImm, fun _ => decode_ldReg, fun x y kk s => ⟨?_, ?_, ?_⟩⟩
  · exact loadReg_completes rfl fun _ => id
  · exact loadReg_completes rfl fun t (h : t.reg x = _) => h ▸ u8_add_toNat (s.reg x) kk
  · exact loadReg_completes rfl fun _ => id

/-! ## OR, AND and XOR (R166 to R168) -/

/-- Settles O22: each loads a bitwise combination of Vx and Vy, whose bits the library knows. -/
theorem logicWorksBitByBit : Obligations.LogicWorksBitByBit := by
  refine ⟨fun _ => decode_orReg, fun _ => decode_andReg, fun _ => decode_xorReg, fun x y s => ⟨?_, ?_, ?_⟩⟩
  · exact loadReg_completes rfl fun t (h : t.reg x = _) b _ => h ▸ BitVec.getLsbD_or
  · exact loadReg_completes rfl fun t (h : t.reg x = _) b _ => h ▸ BitVec.getLsbD_and
  · exact loadReg_completes rfl fun t (h : t.reg x = _) b _ => h ▸ BitVec.getLsbD_xor

end Sys2Proof.Machine
end

section
/-! The instructions that set I and touch neither registers nor memory: LD I and LD F (R192, R194). -/

namespace Sys2Proof.Machine

/-! ## Setting I and going on -/

/-- A result that sets I to `w` and advances completes, with the PC and the frame that the statements ask for, and with
the number of `w` in I. -/
theorem setI_completes {s : State} {r : Result} {w : Word} {n : Nat} (hr : r = .next (s.setI w).advance)
    (hw : w.toNat = n) :
    ∃ t, r = .next t ∧ t.I.toNat = n ∧ PCAdvanced s t ∧ KeepsRegs s t [] ∧ KeepsMemory s t ∧ t.disp = s.disp ∧
      KeepsStackTimersKeys s t :=
  ⟨(s.setI w).advance, hr, hw, advance_PC_toNat (s.setI w), fun _ _ => rfl, fun _ => rfl, rfl, rfl, rfl, rfl, rfl⟩

/-! ## LD I (R192) -/

/-- Settles O27: LD I sets I to the zero-extended nnn. -/
theorem ldILoadsTheAddress : Obligations.LdILoadsTheAddress :=
  ⟨fun _ => decode_ldI, fun nnn _ => setI_completes rfl (addrOperand_toNat nnn)⟩

/-! ## LD F (R194) -/

theorem params_fontFits : params.fontFits := by decide

/-- A font that fits below 0x200 leaves every glyph's address far from the 16-bit wrap. -/
theorem glyphAddr_toNat {p : Params} (fits : p.fontFits) (v : Byte) :
    (glyphAddr p v).toNat = p.fontBase + 5 * (v.toNat % 16) := by
  have below : p.fontBase + 80 ≤ 0x200 := fits
  have wraps : (glyphAddr p v).toNat = (p.fontBase + 5 * (v &&& 0x0F#8).toNat) % 65536 :=
    u16_add_toNat p.fontBase (5 * (v &&& 0x0F#8).toNat)
  rw [wraps, lowNibble_toNat]
  omega

/-- Settles O29: LD F sets I to the address of the glyph, which FONT_BASE keeps below 0x200. -/
theorem ldFPointsAtTheGlyph : Obligations.LdFPointsAtTheGlyph :=
  ⟨fun _ => decode_ldFVx, fun x s => setI_completes rfl (glyphAddr_toNat params_fontFits (s.reg x))⟩

end Sys2Proof.Machine
end

section
/-! CLS (R215, R216). -/

namespace Sys2Proof.Machine

theorem decode_cls : decode 0x00E0#16 = .ok .cls := rfl

theorem exec_cls (s : State) : exec .cls s = .next { s with disp := Display.clear }.advance := rfl

/-- A new display and an advance leave every register, VF among them, and all but the display and the PC as they were. -/
theorem keepsAllButDisplay_advance (s : State) (d : Display) :
    let t := { s with disp := d }.advance
    KeepsRegs s t [] ∧ KeepsMemory s t ∧ t.I = s.I ∧ KeepsStackTimersKeys s t :=
  ⟨fun _ _ => rfl, fun _ => rfl, rfl, rfl, rfl, rfl, rfl⟩

/-- Settles O33: CLS stores the clear display, whose every pixel is 0, and advances. -/
theorem clsClearsEveryPixel : Obligations.ClsClearsEveryPixel := by
  refine ⟨?_, fun s => ⟨_, exec_cls s, ?pixels, advance_PC_toNat _, keepsAllButDisplay_advance s _⟩⟩
  · rintro _ rfl
    exact decode_cls
  case pixels => exact Display.pixel_clear

end Sys2Proof.Machine
end

section
/-! The instructions that move the timers: LD Vx, DT, LD DT, Vx and LD ST, Vx (R235 to R237). -/

namespace Sys2Proof.Machine

theorem exec_ldVxDt (x : Reg) (s : State) : exec (.ldVxDt x) s = loadReg x s.DT s := rfl

theorem exec_ldDtVx (x : Reg) (s : State) : exec (.ldDtVx x) s = .next { s with DT := s.reg x }.advance := rfl

theorem exec_ldStVx (x : Reg) (s : State) : exec (.ldStVx x) s = .next { s with ST := s.reg x }.advance := rfl

/-- A new DT and an advance leave all but DT and the PC as they were. -/
theorem keepsAllButDT_advance (s : State) (b : Byte) :
    let t := { s with DT := b }.advance
    KeepsRegs s t [] ∧ KeepsMemory s t ∧ t.I = s.I ∧ t.disp = s.disp ∧ t.stack = s.stack ∧ t.ST = s.ST ∧
      t.keys = s.keys :=
  ⟨fun _ _ => rfl, fun _ => rfl, rfl, rfl, rfl, rfl, rfl⟩

/-- A new ST and an advance leave all but ST and the PC as they were. -/
theorem keepsAllButST_advance (s : State) (b : Byte) :
    let t := { s with ST := b }.advance
    KeepsRegs s t [] ∧ KeepsMemory s t ∧ t.I = s.I ∧ t.disp = s.disp ∧ t.stack = s.stack ∧ t.DT = s.DT ∧
      t.keys = s.keys :=
  ⟨fun _ _ => rfl, fun _ => rfl, rfl, rfl, rfl, rfl, rfl⟩

/-- Settles O39: the read of DT is a register load; each write stores Vx in its one timer and advances. -/
theorem timerInstructionsMoveTheTimers : Obligations.TimerInstructionsMoveTheTimers := by
  refine ⟨fun _ => decode_ldVxDt, fun _ => decode_ldDtVx, fun _ => decode_ldStVx, fun x s => ⟨?_, ?_, ?_⟩⟩
  · exact loadReg_completes (exec_ldVxDt x s) fun _ => id
  · exact ⟨_, exec_ldDtVx x s, rfl, advance_PC_toNat _, keepsAllButDT_advance s _⟩
  · exact ⟨_, exec_ldStVx x s, rfl, advance_PC_toNat _, keepsAllButST_advance s _⟩

end Sys2Proof.Machine
end

section
/-! The host's events and reads between steps: timer ticks, key events, the display snapshot and the memory view
(R264, R267, R268, R80). -/

namespace Sys2Proof.Machine

/-! ## Timer ticks (R264) -/

@[simp] theorem tickDown_toNat (t : Byte) : (tickDown t).toNat = t.toNat - 1 := by
  unfold tickDown
  split
  case isTrue pos =>
    have := t.isLt
    have pred : ((t.toNat : Int) - 1) = (t.toNat - 1 : Nat) := by omega
    rw [pred, u8_toNat]
    omega
  case isFalse zero => omega

@[simp] theorem tickTimers_DT_toNat (s : State) : (tickTimers s).DT.toNat = s.DT.toNat - 1 := tickDown_toNat s.DT

@[simp] theorem tickTimers_ST_toNat (s : State) : (tickTimers s).ST.toNat = s.ST.toNat - 1 := tickDown_toNat s.ST

theorem transactAll_ticks_succ (n : Nat) (s : State) :
    transactAll (List.replicate (n + 1) .tickTimers) s
      = transactAll (List.replicate n .tickTimers) (tickTimers s) := rfl

theorem transactAll_ticks_timers (n : Nat) (s : State) :
    (transactAll (List.replicate n .tickTimers) s).DT.toNat = s.DT.toNat - n ∧
    (transactAll (List.replicate n .tickTimers) s).ST.toNat = s.ST.toNat - n := by
  induction n generalizing s with
  | zero => exact ⟨rfl, rfl⟩
  | succ n ih =>
    obtain ⟨dt, st⟩ := ih (tickTimers s)
    rw [transactAll_ticks_succ, dt, st, tickTimers_DT_toNat, tickTimers_ST_toNat]
    omega

/-- Settles O53: a tick is one predecessor on each counter, and n of them add up by induction. -/
theorem ticksCountDownToZero : Obligations.TicksCountDownToZero :=
  ⟨fun s => ⟨rfl, tickTimers_DT_toNat s, tickTimers_ST_toNat s, rfl⟩, transactAll_ticks_timers⟩

/-! ## Key events (R267) -/

theorem key_keyUp (s : State) (k j : Key) : (keyUp k s).key j = if k = j then false else s.key j := by
  simp [keyUp, State.key, Vector.getElem_set, Fin.ext_iff]

theorem keyDown_keyDown (k : Key) (s : State) : keyDown k (keyDown k s) = keyDown k s := by
  simp only [keyDown, Vector.set_set]

theorem keyUp_keyUp (k : Key) (s : State) : keyUp k (keyUp k s) = keyUp k s := by
  simp only [keyUp, Vector.set_set]

/-- The level that a release stores wins over the one a press stored before it. -/
theorem keyUp_keyDown (k : Key) (s : State) : keyUp k (keyDown k s) = keyUp k s := by
  simp only [keyUp, keyDown, Vector.set_set]

/-- Settles O54: each event stores one level in the keypad, over which a later store to the same key wins; a release of
a released key stores the level it has. -/
theorem keyEventsSetTheirKey : Obligations.KeyEventsSetTheirKey := by
  refine fun k s => ⟨fun j => ?down, fun j => ?up, rfl, rfl, keyDown_keyDown k s, keyUp_keyUp k s,
    fun released => ?pressRelease, rfl, rfl⟩
  case down => exact (key_keyDown s k j).trans (if_congr eq_comm rfl rfl)
  case up => exact (key_keyUp s k j).trans (if_congr eq_comm rfl rfl)
  case pressRelease => rw [keyUp_keyDown, keyUp_of_released released]

/-! ## Reads of the display and of memory (R268, R80) -/

/-- The snapshot is the display's bits as one vector, row after row. -/
theorem displaySnapshot_eq_flatten (s : State) :
    displaySnapshot s = (s.disp.map fun row => row.map BitVec.ofBool).flatten.toList := by
  simp [displaySnapshot, Vector.flatten, Vector.toList, Function.comp_def]

theorem length_displaySnapshot (s : State) : (displaySnapshot s).length = 2048 := by
  rw [displaySnapshot_eq_flatten, Vector.length_toList]

/-- Element row * 64 + col: its quotient by 64 is the row and its remainder the column. -/
theorem getElem?_displaySnapshot (s : State) (row : Fin 32) (col : Fin 64) :
    (displaySnapshot s)[row.val * 64 + col.val]? = some (BitVec.ofBool (s.disp.pixel row col)) := by
  have inside : row.val * 64 + col.val < 32 * 64 := by omega
  have quotient : (row.val * 64 + col.val) / 64 = row.val := by omega
  have remainder : (row.val * 64 + col.val) % 64 = col.val := by omega
  rw [displaySnapshot_eq_flatten, Vector.getElem?_toList, Vector.getElem?_eq_getElem inside, Vector.getElem_flatten]
  simp only [quotient, remainder, Vector.getElem_map, Display.pixel, Fin.getElem_fin]

theorem length_memoryView (s : State) : (memoryView s).length = 4096 := Memory.length_readBytes s.mem 0 memSize

theorem getElem?_memoryView (s : State) {a : Nat} (inside : a < 4096) : (memoryView s)[a]? = some (s.mem.read a) := by
  rw [memoryView, Memory.getElem?_readBytes, if_pos inside, Nat.zero_add]

/-- Settles O58: both reads answer the state they were given, with its pixels and its bytes in order. -/
theorem snapshotsListPixelsAndBytes : Obligations.SnapshotsListPixelsAndBytes := fun s =>
  ⟨rfl, length_displaySnapshot s, getElem?_displaySnapshot s, rfl, length_memoryView s,
    fun _ => getElem?_memoryView s⟩

end Sys2Proof.Machine
end

section
/-! Loading a program (R294, R295): the length check decides between the error and the load. -/

namespace Sys2Proof.Machine

theorem loadProgram_of_tooLong {bytes : List Byte} (s : State) (tooLong : bytes.length + progBase > memSize) :
    loadProgram bytes s = .fault (.outOfBounds 0x1000) :=
  if_pos tooLong

theorem transact_loadProgram_of_fault {bytes : List Byte} {s : State} {e : Fault}
    (h : loadProgram bytes s = .fault e) : transact (.loadProgram bytes) s = (s, .err e) := by
  rw [transact, h, settle_fault]

theorem transact_loadProgram_of_next {bytes : List Byte} {s t : State} (h : loadProgram bytes s = .next t) :
    transact (.loadProgram bytes) s = (t, .ok) := by
  rw [transact, h, settle_next]

/-- Settles O56: an image that fails the length check faults in the state it was given, and one of at most 3584 bytes
passes it. -/
theorem loadFailsOnlyWhenTooLong : Obligations.LoadFailsOnlyWhenTooLong := by
  refine fun bytes s => ⟨fun tooLong => ?fails, fun short => ?succeeds⟩
  case fails => exact ⟨_, transact_loadProgram_of_fault (loadProgram_of_tooLong s tooLong)⟩
  case succeeds =>
    have fits : bytes.length + progBase ≤ memSize := Nat.add_le_add_right short progBase
    rw [transact_loadProgram_of_next (loadProgram_of_fits s fits)]

end Sys2Proof.Machine
end

section
/-! The decoder and the encoder: the round trip, the don't-care bits of the shifts, and the families that decode by the
family nibble, the last nibble or the whole word (R91 to R103). -/

namespace Sys2Proof

/-! ## Decoding an encoded instruction -/

theorem decode_encode {i : Instr} (wf : i.wellFormed = true) : decode (encode i) = .ok i := by
  cases i with
  | cls => rfl
  | ret => rfl
  | jp nnn => simpa [encode] using decode_jp (Laws.EncodesItsRow.jp nnn)
  | call nnn => simpa [encode] using decode_call (Laws.EncodesItsRow.call nnn)
  | seImm x kk => simpa [encode] using decode_seImm (Laws.EncodesItsRow.seImm x kk)
  | sneImm x kk => simpa [encode] using decode_sneImm (Laws.EncodesItsRow.sneImm x kk)
  | seReg x y => simpa [encode] using decode_seReg (Laws.EncodesItsRow.seReg x y)
  | ldImm x kk => simpa [encode] using decode_ldImm (Laws.EncodesItsRow.ldImm x kk)
  | addImm x kk => simpa [encode] using decode_addImm (Laws.EncodesItsRow.addImm x kk)
  | ldReg x y => simpa [encode] using decode_ldReg (Laws.EncodesItsRow.ldReg x y)
  | orReg x y => simpa [encode] using decode_orReg (Laws.EncodesItsRow.orReg x y)
  | andReg x y => simpa [encode] using decode_andReg (Laws.EncodesItsRow.andReg x y)
  | xorReg x y => simpa [encode] using decode_xorReg (Laws.EncodesItsRow.xorReg x y)
  | addReg x y => simpa [encode] using decode_addReg (Laws.EncodesItsRow.addReg x y)
  | sub x y => simpa [encode] using decode_sub (Laws.EncodesItsRow.sub x y)
  | shr x => simpa [encode] using decode_shr (Laws.EncodesItsRow.shr x)
  | subn x y => simpa [encode] using decode_subn (Laws.EncodesItsRow.subn x y)
  | shl x => simpa [encode] using decode_shl (Laws.EncodesItsRow.shl x)
  | sneReg x y => simpa [encode] using decode_sneReg (Laws.EncodesItsRow.sneReg x y)
  | ldI nnn => simpa [encode] using decode_ldI (Laws.EncodesItsRow.ldI nnn)
  | jpV0 nnn => simpa [encode] using decode_jpV0 (Laws.EncodesItsRow.jpV0 nnn)
  | rnd x kk => simpa [encode] using decode_rnd (Laws.EncodesItsRow.rnd x kk)
  | drw x y n =>
    have height : n ≠ 0#4 := by simpa [Instr.wellFormed, Instr.wellFormedWith] using wf
    have field : fieldN (encode (.drw x y n)) ≠ 0#4 := by rwa [encode, fieldN_encXYN]
    simpa [encode] using decode_drw (Laws.EncodesItsRow.drw x y n) field
  | skp x => simpa [encode] using decode_skp (Laws.EncodesItsRow.skp x)
  | sknp x => simpa [encode] using decode_sknp (Laws.EncodesItsRow.sknp x)
  | ldVxDt x => simpa [encode] using decode_ldVxDt (Laws.EncodesItsRow.ldVxDt x)
  | ldVxK x => simpa [encode] using decode_ldVxK (Laws.EncodesItsRow.ldVxK x)
  | ldDtVx x => simpa [encode] using decode_ldDtVx (Laws.EncodesItsRow.ldDtVx x)
  | ldStVx x => simpa [encode] using decode_ldStVx (Laws.EncodesItsRow.ldStVx x)
  | addIVx x => simpa [encode] using decode_addIVx (Laws.EncodesItsRow.addIVx x)
  | ldFVx x => simpa [encode] using decode_ldFVx (Laws.EncodesItsRow.ldFVx x)
  | ldBVx x => simpa [encode] using decode_ldBVx (Laws.EncodesItsRow.ldBVx x)
  | ldMemVx x => simpa [encode] using decode_ldMemVx (Laws.EncodesItsRow.ldMemVx x)
  | ldVxMem x => simpa [encode] using decode_ldVxMem (Laws.EncodesItsRow.ldVxMem x)

/-- Settles O2: an encoded word lies in its instruction's row of the opcode table, whose decoding has the word's fields
as operands, and those are the fields that were encoded. -/
theorem decodeEncodeRoundTrip : Obligations.DecodeEncodeRoundTrip := by
  refine fun i wf => ⟨decode_encode wf, fun rest => ?_⟩
  have bytes : decodeBytes (encodeBytes i ++ rest) = _ := decodeBytes_high_low (encode i) rest
  rw [bytes, decode_encode wf]

/-! ## Encoding a decoded word (R102) -/

theorem encNNN_of_family {w : Word} {f : Nibble} (hf : fieldFamily w = f.toNat) : encNNN f (fieldNNN w) = w := by
  rw [← family_eq_of_toNat hf, ← word_eq_encNNN]

theorem encXKK_of_family {w : Word} {f : Nibble} {kk : Byte} (hf : fieldFamily w = f.toNat)
    (hk : (fieldKK w).toNat = kk.toNat) : encXKK f (fieldX w) kk = w := by
  rw [← family_eq_of_toNat hf, ← BitVec.eq_of_toNat_eq hk, ← word_eq_encXKK]

theorem encXYN_of_family {w : Word} {f n : Nibble} (hf : fieldFamily w = f.toNat)
    (hn : (fieldN w).toNat = n.toNat) : encXYN f (fieldX w) (fieldY w) n = w := by
  rw [← family_eq_of_toNat hf, ← BitVec.eq_of_toNat_eq hn, ← word_eq_encXYN]

/-- The mask FF0F clears y. -/
theorem encXYN_and_FF0F (f : Nibble) (x y : Reg) (n : Nibble) : encXYN f x y n &&& 0xFF0F#16 = encXYN f x 0 n := by
  apply BitVec.eq_of_getLsbD_eq
  intro i hi
  rw [BitVec.getLsbD_and, getLsbD_encXYN, getLsbD_encXYN]
  interval_cases i <;> simp [regField]

/-- What O3 says of a word and the instruction it decodes to: only a shift's encoding differs from the word, and that in
y alone. -/
def OnlyYLost (w : Word) (i : Instr) : Prop :=
  i.wellFormed = true ∧ ((∀ x, i ≠ .shr x) → (∀ x, i ≠ .shl x) → encode i = w) ∧
    ∀ x, i = .shr x ∨ i = .shl x → encode i = w &&& 0xFF0F#16

theorem onlyYLost_of_encode {w : Word} {i : Instr} (noShr : ∀ x, i ≠ .shr x) (noShl : ∀ x, i ≠ .shl x)
    (wf : i.wellFormed = true) (h : encode i = w) : OnlyYLost w i :=
  ⟨wf, fun _ _ => h, fun x shift => (shift.elim (noShr x) (noShl x)).elim⟩

theorem onlyYLost_of_shift {w : Word} {i : Instr} {x : Reg} (shift : i = .shr x ∨ i = .shl x)
    (h : encode i = w &&& 0xFF0F#16) : OnlyYLost w i := by
  refine ⟨?_, fun noShr noShl => (shift.elim (noShr x) (noShl x)).elim, fun _ _ => h⟩
  obtain rfl | rfl := shift <;> rfl

/-- The encoding of a shift read from `w`: the word with y cleared. -/
theorem encXYN_zero_of_family {w : Word} {f n : Nibble} (hf : fieldFamily w = f.toNat)
    (hn : (fieldN w).toNat = n.toNat) : encXYN f (fieldX w) 0 n = w &&& 0xFF0F#16 := by
  rw [← encXYN_and_FF0F f (fieldX w) (fieldY w) n, encXYN_of_family hf hn]

theorem onlyYLost_of_decodeFamily8 {w : Word} {i : Instr} (hf : fieldFamily w = 0x8)
    (h : decodeFamily8 w (fieldX w) (fieldY w) = .ok i) : OnlyYLost w i := by
  unfold decodeFamily8 at h
  split at h
  case h_7 hn => cases h; exact onlyYLost_of_shift (.inl rfl) (encXYN_zero_of_family hf hn)
  case h_9 hn => cases h; exact onlyYLost_of_shift (.inr rfl) (encXYN_zero_of_family hf hn)
  case h_10 => cases h
  all_goals
    next hn => cases h; exact onlyYLost_of_encode nofun nofun rfl (encXYN_of_family hf hn)

theorem onlyYLost_of_decodeFamilyE {w : Word} {i : Instr} (hf : fieldFamily w = 0xE)
    (h : decodeFamilyE w (fieldX w) = .ok i) : OnlyYLost w i := by
  unfold decodeFamilyE at h
  split at h
  case h_3 => cases h
  all_goals
    next hk => cases h; exact onlyYLost_of_encode nofun nofun rfl (encXKK_of_family hf hk)

theorem onlyYLost_of_decodeFamilyF {w : Word} {i : Instr} (hf : fieldFamily w = 0xF)
    (h : decodeFamilyF w (fieldX w) = .ok i) : OnlyYLost w i := by
  unfold decodeFamilyF at h
  split at h
  case h_10 => cases h
  all_goals
    next hk => cases h; exact onlyYLost_of_encode nofun nofun rfl (encXKK_of_family hf hk)

theorem onlyYLost_of_decode {w : Word} {i : Instr} (h : decode w = .ok i) : OnlyYLost w i := by
  rw [decode, params_dxy0Policy, decodeWith] at h
  split at h
  case h_1 hf =>
    split at h
    case isTrue hw => cases h; exact onlyYLost_of_encode nofun nofun rfl hw.symm
    case isFalse =>
      split at h
      case isTrue hw => cases h; exact onlyYLost_of_encode nofun nofun rfl hw.symm
      case isFalse => cases h
  case h_6 hf | h_10 hf =>
    split at h
    case isTrue hn => cases h; exact onlyYLost_of_encode nofun nofun rfl (encXYN_of_family hf (congrArg _ hn))
    case isFalse => cases h
  case h_9 hf => exact onlyYLost_of_decodeFamily8 hf h
  case h_14 hf =>
    split at h
    case isTrue => cases h
    case isFalse hn =>
      cases h
      refine onlyYLost_of_encode nofun nofun ?_ (encXYN_of_family hf rfl)
      simpa [Instr.wellFormed, Instr.wellFormedWith] using hn
  case h_15 hf => exact onlyYLost_of_decodeFamilyE hf h
  case h_16 hf => exact onlyYLost_of_decodeFamilyF hf h
  case h_2 hf | h_3 hf | h_11 hf | h_12 hf =>
    cases h; exact onlyYLost_of_encode nofun nofun rfl (encNNN_of_family hf)
  case h_4 hf | h_5 hf | h_7 hf | h_8 hf | h_13 hf =>
    cases h; exact onlyYLost_of_encode nofun nofun rfl (encXKK_of_family hf rfl)
  case h_17 => cases h

theorem decode_encXYN_shr (x y : Reg) : decode (encXYN 0x8#4 x y 0x6#4) = .ok (.shr x) := by
  have row : encXYN 0x8#4 x y 0x6#4 &&& 0xF00F#16 = 0x8006#16 := encXYN_and_F00F _ _ _ _
  rw [decode_shr row, fieldX_encXYN]

theorem decode_encXYN_shl (x y : Reg) : decode (encXYN 0x8#4 x y 0xE#4) = .ok (.shl x) := by
  have row : encXYN 0x8#4 x y 0xE#4 &&& 0xF00F#16 = 0x800E#16 := encXYN_and_F00F _ _ _ _
  rw [decode_shl row, fieldX_encXYN]

/-- Settles O3: every branch of the decoder rebuilds the word from the fields it kept, and only the two shifts drop a
field. -/
theorem onlyShiftsHaveDontCareBits : Obligations.OnlyShiftsHaveDontCareBits :=
  ⟨fun x y => ⟨decode_encXYN_shr x y, decode_encXYN_shl x y⟩, fun _ _ => onlyYLost_of_decode⟩

/-! ## The families without a sub-opcode table -/

theorem decode_of_family0 {w : Word} (hf : fieldFamily w = 0x0) (notCls : w ≠ 0x00E0#16) (notRet : w ≠ 0x00EE#16) :
    decode w = .error (.unknownOpcode w) := by
  simp only [decode, decodeWith, hf, if_neg notCls, if_neg notRet]

theorem decode_of_family59_unlisted {w : Word} (hf : fieldFamily w = 0x5 ∨ fieldFamily w = 0x9)
    (hn : fieldN w ≠ 0#4) : decode w = .error (.unknownOpcode w) := by
  obtain hf | hf := hf <;> simp only [decode, decodeWith, hf, if_neg hn]

/-- Under noop_vf0 a height of 0 decodes like any other (D10). -/
theorem decodeWith_noopVf0_of_familyD {w : Word} (hf : fieldFamily w = 0xD) :
    decodeWith .noopVf0 w = .ok (.drw (fieldX w) (fieldY w) (fieldN w)) := by
  simp [decodeWith, hf]

theorem decode_of_familyD_height0 {w : Word} (hf : fieldFamily w = 0xD) (hn : fieldN w = 0#4) :
    decode w = .error (.unknownOpcode w) := by
  simp [decode, decodeWith, hf, hn]

theorem decode_of_familyD {w : Word} (hf : fieldFamily w = 0xD) (hn : fieldN w ≠ 0#4) :
    decode w = .ok (.drw (fieldX w) (fieldY w) (fieldN w)) := by
  simp [decode, decodeWith, hf, hn]

/-- Settles O5: a pattern that is a row of the opcode table decodes as its row does; the rest are the other branches of
families 0, 5, 9 and D. -/
theorem otherFamiliesDecodeTheirPatterns : Obligations.OtherFamiliesDecodeTheirPatterns := by
  refine fun w => ⟨fun hf => ⟨?cls, ?ret, decode_of_family0 hf⟩, decode_jp, decode_call, decode_seImm, decode_sneImm,
    decode_seReg, decode_ldImm, decode_addImm, decode_sneReg, decode_ldI, decode_jpV0, decode_rnd,
    decode_of_family59_unlisted, fun hf => ⟨decode_of_familyD_height0 hf, decode_of_familyD hf⟩⟩
  case cls =>
    rintro rfl
    exact Machine.decode_cls
  case ret =>
    rintro rfl
    exact Machine.decode_ret

/-- Settles O6: each word is evaluated. -/
theorem sampleWordsDecode : Obligations.SampleWordsDecode := by
  unfold Obligations.SampleWordsDecode
  decide

end Sys2Proof
end

section
/-! What one instruction can do: its error if it raises one, its successor if it completes, and the parts of the state
that it leaves alone (R22 to R32, R126, R251). -/

namespace Sys2Proof.Machine

/-! ## The error of an instruction (R251) -/

/-- The error that `exec i s` raises, read off the stack, I and Vx alone. -/
def execFault (i : Instr) (s : State) : Option Fault :=
  match i with
  | .ret => if s.stack = [] then some .stackUnderflow else none
  | .call _ => if stackDepth ≤ s.stack.length then some .stackOverflow else none
  | .skp x | .sknp x => if (s.reg x).toNat < 16 then none else some (.invalidKey (s.reg x))
  | .drw _ _ n => firstFault readFault s.I.toNat n.toNat
  | .ldVxMem x => firstFault readFault s.I.toNat (x.val + 1)
  | .ldBVx _ => firstFault (writeFault .fault) s.I.toNat 3
  | .ldMemVx x => firstFault (writeFault .fault) s.I.toNat (x.val + 1)
  | _ => none

@[simp] theorem params_keyIndexPolicy : params.keyIndexPolicy = .fault := rfl

theorem keyOperand_fault_of_lt {v : Byte} (h : v.toNat < 16) : keyOperand .fault v = .ok ⟨v.toNat, h⟩ := dif_pos h

theorem keyOperand_fault_of_ge {v : Byte} (h : 16 ≤ v.toNat) : keyOperand .fault v = .error (.invalidKey v) :=
  dif_neg (Nat.not_lt.2 h)

/-- A key skip on a nibble completes, whichever position of the key it wants. -/
theorem keySkip_of_lt {x : Reg} {s : State} (wanted : Bool) (h : (s.reg x).toNat < 16) :
    keySkipWith params wanted x s = .next (s.skipIf (s.key ⟨(s.reg x).toNat, h⟩ == wanted)) := by
  simp only [keySkipWith, params_keyIndexPolicy, keyOperand_fault_of_lt h]

theorem keySkip_of_ge {x : Reg} {s : State} (wanted : Bool) (h : 16 ≤ (s.reg x).toNat) :
    keySkipWith params wanted x s = .fault (.invalidKey (s.reg x)) := by
  simp only [keySkipWith, params_keyIndexPolicy, keyOperand_fault_of_ge h, raise]

theorem drwWith_eq_fault {p : Params} {x y : Reg} {n : Nibble} {s : State} {e : Fault}
    (h : firstFault readFault s.I.toNat n.toNat = some e) : drwWith p x y n s = .fault e := by
  simp only [drwWith, indexAddr, h, raise]

theorem drwWith_completes {p : Params} {x y : Reg} {n : Nibble} {s : State}
    (h : firstFault readFault s.I.toNat n.toNat = none) :
    drwWith p x y n s = .next ({ s with
      disp := (drawSprite p.spriteBitOrder (s.reg x).toNat (s.reg y).toNat (s.mem.readBytes s.I.toNat n.toNat)
        s.disp).1 }.setFlag (drawSprite p.spriteBitOrder (s.reg x).toNat (s.reg y).toNat
          (s.mem.readBytes s.I.toNat n.toNat) s.disp).2).advance := by
  simp only [drwWith, indexAddr, h]

theorem ldVxMemWith_eq_fault {p : Params} {x : Reg} {s : State} {e : Fault}
    (h : firstFault readFault s.I.toNat (x.val + 1) = some e) : ldVxMemWith p x s = .fault e := by
  simp only [ldVxMemWith, indexAddr, h, raise]

theorem ldVxMemWith_completes {p : Params} {x : Reg} {s : State}
    (h : firstFault readFault s.I.toNat (x.val + 1) = none) :
    ldVxMemWith p x s
      = .next ((s.setRegsFrom 0 (s.mem.readBytes s.I.toNat (x.val + 1))).setI (indexAfter p x s)).advance := by
  simp only [ldVxMemWith, indexAddr, h]

theorem execRet_of_ne_nil {s : State} (h : s.stack ≠ []) : ∃ t, exec .ret s = .next t := by
  obtain ⟨a, rest, hs⟩ := List.exists_cons_of_ne_nil h
  exact ⟨_, exec_ret_of_cons hs⟩

theorem ldVxKWith_completes (p : Params) (x : Reg) (s : State) : ∃ t, ldVxKWith p x s = .next t := by
  unfold ldVxKWith
  split
  · exact ⟨_, rfl⟩
  · exact ⟨_, rfl⟩

/-- An instruction raises the error `execFault` names. -/
theorem exec_of_execFault_some {i : Instr} {s : State} {e : Fault} (h : execFault i s = some e) :
    exec i s = .fault e := by
  cases i with
  | ret =>
    obtain ⟨empty, ⟨⟩⟩ := Option.ite_none_right_eq_some.1 h
    exact exec_ret_of_nil empty
  | call nnn =>
    obtain ⟨full, ⟨⟩⟩ := Option.ite_none_right_eq_some.1 h
    exact exec_call_of_full nnn full
  | skp x =>
    obtain ⟨large, ⟨⟩⟩ := Option.ite_none_left_eq_some.1 h
    exact keySkip_of_ge true (Nat.not_lt.1 large)
  | sknp x =>
    obtain ⟨large, ⟨⟩⟩ := Option.ite_none_left_eq_some.1 h
    exact keySkip_of_ge false (Nat.not_lt.1 large)
  | drw x y n => exact drwWith_eq_fault h
  | ldVxMem x => exact ldVxMemWith_eq_fault h
  | ldBVx x => exact storeAtIndex_eq_fault h
  | ldMemVx x => exact storeAtIndex_eq_fault (by rwa [length_regsUpTo])
  | _ => cases h

/-- An instruction for which `execFault` names no error completes. -/
theorem exec_of_execFault_none {i : Instr} {s : State} (h : execFault i s = none) : ∃ t, exec i s = .next t := by
  cases i with
  | ret => exact execRet_of_ne_nil (by simpa [execFault] using h)
  | call nnn => exact ⟨_, exec_call_of_room nnn (by simpa [execFault] using h)⟩
  | skp x => exact ⟨_, keySkip_of_lt true (by simpa [execFault] using h)⟩
  | sknp x => exact ⟨_, keySkip_of_lt false (by simpa [execFault] using h)⟩
  | drw x y n => exact ⟨_, drwWith_completes h⟩
  | ldVxMem x => exact ⟨_, ldVxMemWith_completes h⟩
  | ldBVx x => exact ⟨_, storeAtIndex_eq_next h⟩
  | ldMemVx x => exact ⟨_, storeAtIndex_eq_next (by rwa [length_regsUpTo])⟩
  | ldVxK x => exact ldVxKWith_completes params x s
  | _ => exact ⟨_, rfl⟩

/-- The outcomes of an instruction: it completes, or raises the error that `execFault` names. -/
theorem exec_outcome (i : Instr) (s : State) :
    (∃ t, exec i s = .next t ∧ execFault i s = none) ∨ ∃ e, exec i s = .fault e ∧ execFault i s = some e := by
  cases h : execFault i s with
  | none =>
    obtain ⟨t, ht⟩ := exec_of_execFault_none h
    exact .inl ⟨t, ht, rfl⟩
  | some e => exact .inr ⟨e, exec_of_execFault_some h, rfl⟩

theorem execFault_of_fault {i : Instr} {s : State} {e : Fault} (h : exec i s = .fault e) :
    execFault i s = some e := by
  obtain ⟨t, ht, -⟩ | ⟨e', he, hf⟩ := exec_outcome i s
  · rw [ht] at h; cases h
  · rw [he] at h; cases h; exact hf

/-! ## Which instruction raises which error (R251, R256) -/

theorem isOutOfBounds_of_firstFault_readFault {base n : Nat} {e : Fault}
    (h : firstFault readFault base n = some e) : ∃ a, e = .outOfBounds a := by
  obtain ⟨k, -, offends, -⟩ := firstFault_eq_some.1 h
  obtain ⟨-, ⟨⟩⟩ := Option.ite_none_right_eq_some.1 offends
  exact ⟨_, rfl⟩

theorem isOutOfBounds_of_firstFault_writeFault {policy : FontWritePolicy} {base n : Nat} {e : Fault}
    (h : firstFault (writeFault policy) base n = some e) : ∃ a, e = .outOfBounds a := by
  obtain ⟨k, -, offends, -⟩ := firstFault_eq_some.1 h
  unfold writeFault at offends
  split at offends
  · cases offends; exact ⟨_, rfl⟩
  · obtain ⟨-, ⟨⟩⟩ := Option.ite_none_right_eq_some.1 offends
    exact ⟨_, rfl⟩

/-- R251's column "raised by", for the instruction `i` at the state `s`. -/
def RaisedBy (i : Instr) (s : State) : Fault → Prop
  | .outOfBounds _ =>
    (∃ x y n, i = .drw x y n) ∨ (∃ x, i = .ldBVx x) ∨ (∃ x, i = .ldMemVx x) ∨ (∃ x, i = .ldVxMem x)
  | .stackOverflow => ∃ nnn, i = .call nnn
  | .stackUnderflow => i = .ret
  | .unknownOpcode _ => False
  | .invalidRegister _ => False
  | .invalidKey v => ∃ x, (i = .skp x ∨ i = .sknp x) ∧ v = s.reg x ∧ v.toNat > 0x0F

theorem raisedBy_of_execFault {i : Instr} {s : State} {e : Fault} (h : execFault i s = some e) : RaisedBy i s e := by
  cases i with
  | ret =>
    obtain ⟨-, ⟨⟩⟩ := Option.ite_none_right_eq_some.1 h
    exact rfl
  | call nnn =>
    obtain ⟨-, ⟨⟩⟩ := Option.ite_none_right_eq_some.1 h
    exact ⟨nnn, rfl⟩
  | skp x =>
    obtain ⟨large, ⟨⟩⟩ := Option.ite_none_left_eq_some.1 h
    exact ⟨x, .inl rfl, rfl, Nat.not_lt.1 large⟩
  | sknp x =>
    obtain ⟨large, ⟨⟩⟩ := Option.ite_none_left_eq_some.1 h
    exact ⟨x, .inr rfl, rfl, Nat.not_lt.1 large⟩
  | drw x y n =>
    obtain ⟨a, rfl⟩ := isOutOfBounds_of_firstFault_readFault h
    exact .inl ⟨x, y, n, rfl⟩
  | ldBVx x =>
    obtain ⟨a, rfl⟩ := isOutOfBounds_of_firstFault_writeFault h
    exact .inr (.inl ⟨x, rfl⟩)
  | ldMemVx x =>
    obtain ⟨a, rfl⟩ := isOutOfBounds_of_firstFault_writeFault h
    exact .inr (.inr (.inl ⟨x, rfl⟩))
  | ldVxMem x =>
    obtain ⟨a, rfl⟩ := isOutOfBounds_of_firstFault_readFault h
    exact .inr (.inr (.inr ⟨x, rfl⟩))
  | _ => cases h

/-- The fetch and the decode raise OutOfBounds and UnknownOpcode only. -/
theorem fetchDecode_error {p : Params} {s : State} {e : Fault} (h : fetchDecode p s = .error e) :
    (∃ a, e = .outOfBounds a) ∨ ∃ w, e = .unknownOpcode w := by
  unfold fetchDecode at h
  split at h
  case h_1 failed =>
    cases h
    unfold fetch at failed
    split at failed
    · cases failed; exact .inl ⟨_, rfl⟩
    · split at failed
      · cases failed; exact .inl ⟨_, rfl⟩
      · cases failed
  case h_2 =>
    split at h
    · cases h
    · cases h; exact .inr ⟨_, rfl⟩

/-- A step completes or raises an error, and no error is InvalidRegister. -/
theorem step_outcome (s : State) :
    (∃ t, step s = .next t) ∨ ∃ e, step s = .fault e ∧ ∀ n, e ≠ .invalidRegister n := by
  obtain ⟨e, failed, h⟩ | ⟨i, -, h⟩ := step_cases s
  · refine .inr ⟨e, h, fun n => ?_⟩
    obtain ⟨a, rfl⟩ | ⟨w, rfl⟩ := fetchDecode_error failed <;> exact nofun
  · rw [h]
    obtain ⟨t, ht, -⟩ | ⟨e, he, hf⟩ := exec_outcome i s
    · exact .inl ⟨t, ht⟩
    · refine .inr ⟨e, he, ?_⟩
      rintro n rfl
      exact raisedBy_of_execFault hf

/-- Settles O49: the errors of an instruction are those of `execFault`, whose branches are the rows of R251's table. -/
theorem errorsComeFromTheirInstructions : Obligations.ErrorsComeFromTheirInstructions := by
  refine ⟨fun i s => ?_, step_outcome⟩
  obtain ⟨t, ht, -⟩ | ⟨e, he, hf⟩ := exec_outcome i s
  · rw [ht]; trivial
  · have raised := raisedBy_of_execFault hf
    rw [he]
    cases e <;> exact raised

end Sys2Proof.Machine
end

section
/-! The frame of every instruction: which registers and which other parts of the state it writes (R22 to R32), and that
it reads neither the sound timer nor, but for RND, the random byte (R30, R129). -/

namespace Sys2Proof.Machine

/-! ## The instructions that complete only on a condition -/

section
variable {s t : State}

theorem exec_ret_next (h : exec .ret s = .next t) :
    ∃ a rest, s.stack = a :: rest ∧ t = { s with stack := rest }.jump a := by
  cases hs : s.stack with
  | nil => rw [exec_ret_of_nil hs] at h; cases h
  | cons a rest =>
    rw [exec_ret_of_cons hs] at h
    cases h
    exact ⟨a, rest, rfl, rfl⟩

theorem exec_call_next {nnn : Addr} (h : exec (.call nnn) s = .next t) :
    s.stack.length < stackDepth ∧ t = { s with stack := u16 (s.PC.toNat + 2) :: s.stack }.jump (addrOperand nnn) := by
  obtain room | full := Nat.lt_or_ge s.stack.length stackDepth
  · rw [exec_call_of_room nnn room] at h
    cases h
    exact ⟨room, rfl⟩
  · rw [exec_call_of_full nnn full] at h; cases h

theorem exec_ldVxK_next {x : Reg} (h : exec (.ldVxK x) s = .next t) : t = s ∨ ∃ b, t = (s.setReg x b).advance := by
  cases hp : s.pressed with
  | nil =>
    rw [exec_ldVxK_of_released x (pressed_eq_nil.1 hp)] at h
    cases h
    exact .inl rfl
  | cons k rest =>
    rw [exec_ldVxK_of_pressed x hp] at h
    cases h
    exact .inr ⟨_, rfl⟩

/-! ## The parts of the state that an instruction writes -/

/-- `s` with the registers, the PC and the model's count of draws of `t`. -/
def withCoreOf (s t : State) : State := { s with V := t.V, PC := t.PC, draws := t.draws }

/-- `s` with the parts of `t` that `i` may write. -/
def withWrittenOf (i : Instr) (s t : State) : State :=
  match i with
  | .call _ | .ret => { withCoreOf s t with stack := t.stack }
  | .ldI _ | .addIVx _ | .ldFVx _ => { withCoreOf s t with I := t.I }
  | .cls | .drw _ _ _ => { withCoreOf s t with disp := t.disp }
  | .ldBVx _ | .ldMemVx _ => { withCoreOf s t with mem := t.mem }
  | .ldDtVx _ => { withCoreOf s t with DT := t.DT }
  | .ldStVx _ => { withCoreOf s t with ST := t.ST }
  | _ => withCoreOf s t

theorem eq_withCoreOf_skipIf (s : State) (c : Bool) : s.skipIf c = withCoreOf s (s.skipIf c) := by
  cases c <;> rfl

/-- Two states that agree on everything else. -/
theorem eq_withCoreOf_of_fields {s t : State} (mem : t.mem = s.mem) (I : t.I = s.I) (stack : t.stack = s.stack)
    (DT : t.DT = s.DT) (ST : t.ST = s.ST) (disp : t.disp = s.disp) (keys : t.keys = s.keys) : t = withCoreOf s t := by
  rw [withCoreOf, ← mem, ← I, ← stack, ← DT, ← ST, ← disp, ← keys]

theorem eq_withCoreOf_keySkip {p : Params} {wanted : Bool} {x : Reg} (h : keySkipWith p wanted x s = .next t) :
    t = withCoreOf s t := by
  obtain ⟨k, -, h⟩ := keySkipWith_next h
  cases h
  exact eq_withCoreOf_skipIf s _

theorem eq_withCoreOf_ldVxK {x : Reg} (h : exec (.ldVxK x) s = .next t) : t = withCoreOf s t := by
  obtain rfl | ⟨b, rfl⟩ := exec_ldVxK_next h <;> rfl

theorem eq_withCoreOf_ldVxMem {x : Reg} (h : exec (.ldVxMem x) s = .next t) : t = withCoreOf s t := by
  obtain ⟨-, rfl⟩ := ldVxMemWith_next h
  exact eq_withCoreOf_of_fields (State.setRegsFrom_mem _ s 0) rfl (State.setRegsFrom_stack _ s 0)
    (State.setRegsFrom_DT _ s 0) (State.setRegsFrom_ST _ s 0) (State.setRegsFrom_disp _ s 0)
    (State.setRegsFrom_keys _ s 0)

/-- A completed instruction changes the registers, the PC and what `withWrittenOf` lists for it. -/
theorem eq_withWrittenOf_of_exec {i : Instr} (h : exec i s = .next t) : t = withWrittenOf i s t := by
  cases i with
  | ret => obtain ⟨a, rest, -, rfl⟩ := exec_ret_next h; rfl
  | call nnn => obtain ⟨-, rfl⟩ := exec_call_next h; rfl
  | seImm x kk => cases h; exact eq_withCoreOf_skipIf s _
  | sneImm x kk => cases h; exact eq_withCoreOf_skipIf s _
  | seReg x y => cases h; exact eq_withCoreOf_skipIf s _
  | sneReg x y => cases h; exact eq_withCoreOf_skipIf s _
  | skp x => exact eq_withCoreOf_keySkip h
  | sknp x => exact eq_withCoreOf_keySkip h
  | ldVxK x => exact eq_withCoreOf_ldVxK h
  | ldVxMem x => exact eq_withCoreOf_ldVxMem h
  | drw x y n => obtain ⟨-, sprite, drawn, -, -, rfl⟩ := drwWith_next h; rfl
  | ldBVx x => obtain ⟨-, rfl⟩ := storeAtIndex_next h; rfl
  | ldMemVx x => obtain ⟨-, rfl⟩ := storeAtIndex_next h; rfl
  | _ => cases h; rfl

end

section
variable {i : Instr} {s t : State}

theorem keys_withWrittenOf : (withWrittenOf i s t).keys = s.keys := by cases i <;> rfl

theorem DT_withWrittenOf (h : ∀ x, i ≠ .ldDtVx x) : (withWrittenOf i s t).DT = s.DT := by
  cases i with
  | ldDtVx x => exact absurd rfl (h x)
  | _ => rfl

theorem ST_withWrittenOf (h : ∀ x, i ≠ .ldStVx x) : (withWrittenOf i s t).ST = s.ST := by
  cases i with
  | ldStVx x => exact absurd rfl (h x)
  | _ => rfl

theorem stack_withWrittenOf (h : ∀ nnn, i ≠ .call nnn) (h' : i ≠ .ret) : (withWrittenOf i s t).stack = s.stack := by
  cases i with
  | call nnn => exact absurd rfl (h nnn)
  | ret => exact absurd rfl h'
  | _ => rfl

theorem I_withWrittenOf (h : ∀ nnn, i ≠ .ldI nnn) (h' : ∀ x, i ≠ .addIVx x) (h'' : ∀ x, i ≠ .ldFVx x) :
    (withWrittenOf i s t).I = s.I := by
  cases i with
  | ldI nnn => exact absurd rfl (h nnn)
  | addIVx x => exact absurd rfl (h' x)
  | ldFVx x => exact absurd rfl (h'' x)
  | _ => rfl

theorem disp_withWrittenOf (h : i ≠ .cls) (h' : ∀ x y n, i ≠ .drw x y n) : (withWrittenOf i s t).disp = s.disp := by
  cases i with
  | cls => exact absurd rfl h
  | drw x y n => exact absurd rfl (h' x y n)
  | _ => rfl

theorem mem_withWrittenOf (h : ∀ x, i ≠ .ldBVx x) (h' : ∀ x, i ≠ .ldMemVx x) : (withWrittenOf i s t).mem = s.mem := by
  cases i with
  | ldBVx x => exact absurd rfl (h x)
  | ldMemVx x => exact absurd rfl (h' x)
  | _ => rfl

end

/-- Settles O44: no instruction lists the keypad among what it writes, and one each lists DT and ST. -/
theorem instructionsNeverCountDownOrPressKeys : Obligations.InstructionsNeverCountDownOrPressKeys := by
  intro i s t h
  rw [eq_withWrittenOf_of_exec h]
  exact ⟨keys_withWrittenOf, DT_withWrittenOf, ST_withWrittenOf⟩

/-- Settles O45: the instructions that list each part among what they write. -/
theorem eachUnitHasItsOwnWriters : Obligations.EachUnitHasItsOwnWriters := by
  intro i s t h
  rw [eq_withWrittenOf_of_exec h]
  exact ⟨stack_withWrittenOf, I_withWrittenOf, disp_withWrittenOf, mem_withWrittenOf⟩

/-! ## The registers that an instruction writes -/

theorem onlyRegs_resultAndFlag (s : State) (x : Reg) (b : Byte) (f : Bool) :
    OnlyRegs s (s.resultAndFlag x b f) [x, VF] := by
  refine ⟨fun y hy => ?_, fun _ => rfl, rfl, rfl, rfl, rfl, rfl, rfl⟩
  obtain ⟨notX, notVF⟩ : y ≠ x ∧ y ≠ VF := by simpa using hy
  rw [State.reg_resultAndFlag, if_neg (Ne.symm notVF), if_neg (Ne.symm notX)]

theorem keepsRegs_setFlag (s : State) (f : Bool) : KeepsRegs s (s.setFlag f) [VF] := by
  intro y hy
  rw [State.reg_setFlag, if_neg fun e => hy (List.mem_singleton.2 e.symm)]

/-- The registers above Vx keep their bytes when x + 1 bytes are loaded from V0 on. -/
theorem reg_setRegsFrom_above {s : State} {x y : Reg} {bs : List Byte} (hbs : bs.length = x.val + 1) (above : x < y) :
    (s.setRegsFrom 0 bs).reg y = s.reg y := by
  have past : bs.length ≤ y.val - 0 := hbs.le.trans above
  rw [State.reg_setRegsFrom, if_pos (Nat.zero_le _), List.getElem?_eq_none past, Option.getD_none]

/-- Settles O46: Vx for the loads, Vx and VF for the flag-writing arithmetic, VF for DRW, V0 to Vx for Fx65; every other
instruction leaves the register file as it is. -/
theorem onlyNamedRegistersChange : Obligations.OnlyNamedRegistersChange := by
  intro i s t h
  have loads (u : State) (x : Reg) (b : Byte) : KeepsRegs u (u.setReg x b).advance [x] :=
    (onlyRegs_setReg_advance u x b).1
  have flags (x : Reg) (b : Byte) (f : Bool) : KeepsRegs s (s.resultAndFlag x b f) [x, VF] :=
    (onlyRegs_resultAndFlag s x b f).1
  have skips (c : Bool) : KeepsRegs s (s.skipIf c) [] := (onlyRegs_skipIf s c).1
  cases i with
  | ldImm x kk => cases h; exact loads s x _
  | addImm x kk => cases h; exact loads s x _
  | ldReg x y => cases h; exact loads s x _
  | orReg x y => cases h; exact loads s x _
  | andReg x y => cases h; exact loads s x _
  | xorReg x y => cases h; exact loads s x _
  | rnd x kk => cases h; exact loads s.nextDraw x _
  | ldVxDt x => cases h; exact loads s x _
  | ldVxK x =>
    obtain rfl | ⟨b, rfl⟩ := exec_ldVxK_next h
    · exact fun _ _ => rfl
    · exact loads s x b
  | addReg x y => cases h; exact flags x _ _
  | sub x y => cases h; exact flags x _ _
  | shr x => cases h; exact flags x _ _
  | subn x y => cases h; exact flags x _ _
  | shl x => cases h; exact flags x _ _
  | seImm x kk => cases h; exact skips _
  | sneImm x kk => cases h; exact skips _
  | seReg x y => cases h; exact skips _
  | sneReg x y => cases h; exact skips _
  | skp x => obtain ⟨k, -, h⟩ := keySkipWith_next h; cases h; exact skips _
  | sknp x => obtain ⟨k, -, h⟩ := keySkipWith_next h; cases h; exact skips _
  | drw x y n =>
    obtain ⟨-, sprite, drawn, -, -, rfl⟩ := drwWith_next h
    exact keepsRegs_setFlag { s with disp := drawn.1 } drawn.2
  | ldVxMem x =>
    obtain ⟨-, rfl⟩ := ldVxMemWith_next h
    intro y hy
    have above : x < y := by simpa [writtenRegs] using hy
    exact reg_setRegsFrom_above (Memory.length_readBytes _ _ _) above
  | ret => obtain ⟨a, rest, -, rfl⟩ := exec_ret_next h; exact fun _ _ => rfl
  | call nnn => obtain ⟨-, rfl⟩ := exec_call_next h; exact fun _ _ => rfl
  | ldBVx x => obtain ⟨-, rfl⟩ := storeAtIndex_next h; exact fun _ _ => rfl
  | ldMemVx x => obtain ⟨-, rfl⟩ := storeAtIndex_next h; exact fun _ _ => rfl
  | _ => cases h; exact fun _ _ => rfl

/-! ## What an instruction does not read -/

/-- An error is read off the stack, I and the registers: the timers and the keypad play no part. -/
theorem execFault_of_otherTimersAndKeys (i : Instr) (s : State) (dt st : Byte) (keys : Vector Bool 16) :
    execFault i { s with DT := dt, ST := st, keys := keys } = execFault i s := by
  cases i <;> rfl

theorem step_fault_of_otherTimersAndKeys {s : State} {e : Fault} (h : step s = .fault e) (dt st : Byte)
    (keys : Vector Bool 16) : step { s with DT := dt, ST := st, keys := keys } = .fault e := by
  have fetched : fetchDecode params { s with DT := dt, ST := st, keys := keys } = fetchDecode params s := rfl
  obtain ⟨e', failed, he⟩ | ⟨i, ok, hi⟩ := step_cases s
  · rw [he] at h
    cases h
    rw [step, fetched, failed]; rfl
  · rw [hi] at h
    rw [step, fetched, ok]
    exact exec_of_execFault_some ((execFault_of_otherTimersAndKeys i s dt st keys).trans (execFault_of_fault h))

/-- The transactions of O50 on a state whose step fails: at most the timers and the keypad change. -/
theorem step_transact_fault {s : State} {e : Fault} {t : Transaction}
    (ht : t = .step ∨ t = .tickTimers ∨ (∃ k, t = .keyDown k) ∨ (∃ k, t = .keyUp k) ∨ t = .displaySnapshot ∨
      t = .memoryView) (h : step s = .fault e) : step (transact t s).1 = .fault e := by
  obtain rfl | rfl | ⟨k, rfl⟩ | ⟨k, rfl⟩ | rfl | rfl := ht
  · rwa [transact_step_of_fault h]
  · exact step_fault_of_otherTimersAndKeys h (tickDown s.DT) (tickDown s.ST) s.keys
  · exact step_fault_of_otherTimersAndKeys h s.DT s.ST (s.keys.set k true)
  · exact step_fault_of_otherTimersAndKeys h s.DT s.ST (s.keys.set k false)
  · exact h
  · exact h

/-- Settles O50: each transaction keeps the error of the next step, by induction over the sequence. -/
theorem errorsRecurAcrossTicksAndKeys : Obligations.ErrorsRecurAcrossTicksAndKeys := by
  intro ts
  induction ts with
  | nil => exact fun _ _ _ h => h
  | cons t ts ih =>
    intro s e hts h
    obtain ⟨ht, hts⟩ := List.forall_mem_cons.1 hts
    exact ih _ e hts (step_transact_fault ht h)

/-- Only RND's meaning takes the random byte. -/
theorem execWith_otherByte {i : Instr} (notRnd : ∀ x kk, i ≠ .rnd x kk) (p : Params) (r r' : Byte) (s : State) :
    execWith p r i s = execWith p r' i s := by
  cases i with
  | rnd x kk => exact absurd rfl (notRnd x kk)
  | _ => rfl

theorem stepWith_of_error {p : Params} {s : State} {e : Fault} (h : fetchDecode p s = .error e) (r : Byte) :
    stepWith p r s = .fault e := by
  simp only [stepWith, h, raise]

theorem stepWith_of_ok {p : Params} {s : State} {i : Instr} (h : fetchDecode p s = .ok i) (r : Byte) :
    stepWith p r s = execWith p r i s := by
  rw [stepWith, h]

/-- Settles O51: a fetch error and every instruction but RND ignore the byte; RND loads its mask into Vx. -/
theorem onlyRndReadsTheRandomByte : Obligations.OnlyRndReadsTheRandomByte := by
  intro p r r' s
  cases h : fetchDecode p s with
  | error e => exact .inl ((stepWith_of_error h r).trans (stepWith_of_error h r').symm)
  | ok i =>
    by_cases isRnd : ∃ x kk, i = .rnd x kk
    · obtain ⟨x, kk, rfl⟩ := isRnd
      refine .inr ⟨x, kk, rfl, fun r'' => ⟨_, stepWith_of_ok h r'', ?_⟩⟩
      rw [State.reg_advance, State.reg_setReg, if_pos rfl]
    · have notRnd : ∀ x kk, i ≠ .rnd x kk := fun x kk e => isRnd ⟨x, kk, e⟩
      rw [stepWith_of_ok h, stepWith_of_ok h, execWith_otherByte notRnd p r r']
      exact .inl rfl

/-! ## The sound timer (R30, R39) -/

/-- A result with another ST in its next state. -/
def resultWithST (v : Byte) : Result → Result
  | .next t => .next { t with ST := v }
  | .fault e => .fault e
  | .refused r => .refused r

theorem skipIf_otherST (s : State) (v : Byte) (c : Bool) :
    ({ s with ST := v } : State).skipIf c = { s.skipIf c with ST := v } := by
  cases c <;> rfl

theorem setRegsFrom_otherST (bs : List Byte) (s : State) (v : Byte) (k : Nat) :
    ({ s with ST := v } : State).setRegsFrom k bs = { s.setRegsFrom k bs with ST := v } := by
  induction bs generalizing s k with
  | nil => rfl
  | cons b bs ih =>
    rw [State.setRegsFrom, State.setRegsFrom]
    split
    · exact ih (s.setReg _ b) (k + 1)
    · exact ih s (k + 1)

theorem keySkip_otherST (p : Params) (wanted : Bool) (x : Reg) (s : State) (v : Byte) :
    keySkipWith p wanted x { s with ST := v } = resultWithST v (keySkipWith p wanted x s) := by
  have operand : State.reg { s with ST := v } x = s.reg x := rfl
  unfold keySkipWith
  rw [operand]
  split
  · rfl
  · exact congrArg _ (skipIf_otherST s v _)

theorem ret_otherST (s : State) (v : Byte) : exec .ret { s with ST := v } = resultWithST v (exec .ret s) := by
  obtain hs | ne := eq_or_ne s.stack []
  · rw [exec_ret_of_nil hs, exec_ret_of_nil (s := { s with ST := v }) hs]; rfl
  · obtain ⟨a, rest, hs⟩ := List.exists_cons_of_ne_nil ne
    rw [exec_ret_of_cons hs, exec_ret_of_cons (s := { s with ST := v }) hs]; rfl

theorem call_otherST (nnn : Addr) (s : State) (v : Byte) :
    exec (.call nnn) { s with ST := v } = resultWithST v (exec (.call nnn) s) := by
  obtain room | full := Nat.lt_or_ge s.stack.length stackDepth
  · rw [exec_call_of_room nnn room, exec_call_of_room (s := { s with ST := v }) nnn room]; rfl
  · rw [exec_call_of_full nnn full, exec_call_of_full (s := { s with ST := v }) nnn full]; rfl

theorem ldVxK_otherST (x : Reg) (s : State) (v : Byte) :
    exec (.ldVxK x) { s with ST := v } = resultWithST v (exec (.ldVxK x) s) := by
  cases hp : s.pressed with
  | nil =>
    have released := pressed_eq_nil.1 hp
    rw [exec_ldVxK_of_released x released, exec_ldVxK_of_released (s := { s with ST := v }) x released]; rfl
  | cons k rest => rw [exec_ldVxK_of_pressed x hp, exec_ldVxK_of_pressed (s := { s with ST := v }) x hp]; rfl

theorem drw_otherST (p : Params) (x y : Reg) (n : Nibble) (s : State) (v : Byte) :
    drwWith p x y n { s with ST := v } = resultWithST v (drwWith p x y n s) := by
  cases h : firstFault readFault s.I.toNat n.toNat with
  | none => rw [drwWith_completes h, drwWith_completes (s := { s with ST := v }) h]; rfl
  | some e => rw [drwWith_eq_fault h, drwWith_eq_fault (s := { s with ST := v }) h]; rfl

theorem storeAtIndex_otherST (p : Params) (bs : List Byte) (w : Word) (s : State) (v : Byte) :
    storeAtIndex p bs w { s with ST := v } = resultWithST v (storeAtIndex p bs w s) := by
  cases h : firstFault (writeFault p.fontWritePolicy) s.I.toNat bs.length with
  | none => rw [storeAtIndex_eq_next h, storeAtIndex_eq_next (s := { s with ST := v }) h]; rfl
  | some e => rw [storeAtIndex_eq_fault h, storeAtIndex_eq_fault (s := { s with ST := v }) h]; rfl

theorem ldVxMem_otherST (p : Params) (x : Reg) (s : State) (v : Byte) :
    ldVxMemWith p x { s with ST := v } = resultWithST v (ldVxMemWith p x s) := by
  cases h : firstFault readFault s.I.toNat (x.val + 1) with
  | none =>
    rw [ldVxMemWith_completes h, ldVxMemWith_completes (s := { s with ST := v }) h, setRegsFrom_otherST]; rfl
  | some e => rw [ldVxMemWith_eq_fault h, ldVxMemWith_eq_fault (s := { s with ST := v }) h]; rfl

/-- Every instruction but LD ST, Vx carries ST along unread. -/
theorem exec_otherST {i : Instr} (notLdSt : ∀ x, i ≠ .ldStVx x) (s : State) (v : Byte) :
    exec i { s with ST := v } = resultWithST v (exec i s) := by
  cases i with
  | ldStVx x => exact absurd rfl (notLdSt x)
  | ret => exact ret_otherST s v
  | call nnn => exact call_otherST nnn s v
  | seImm x kk => exact congrArg _ (skipIf_otherST s v _)
  | sneImm x kk => exact congrArg _ (skipIf_otherST s v _)
  | seReg x y => exact congrArg _ (skipIf_otherST s v _)
  | sneReg x y => exact congrArg _ (skipIf_otherST s v _)
  | skp x => exact keySkip_otherST params true x s v
  | sknp x => exact keySkip_otherST params false x s v
  | ldVxK x => exact ldVxK_otherST x s v
  | drw x y n => exact drw_otherST params x y n s v
  | ldBVx x => exact storeAtIndex_otherST params _ _ s v
  | ldMemVx x => exact storeAtIndex_otherST params _ _ s v
  | ldVxMem x => exact ldVxMem_otherST params x s v
  | _ => rfl

/-- Settles O52: LD ST, Vx overwrites ST with the same byte; every other instruction carries it along. -/
theorem soundTimerIsInvisible : Obligations.SoundTimerIsInvisible := by
  intro i v s
  by_cases isLdSt : ∃ x, i = .ldStVx x
  · obtain ⟨x, rfl⟩ := isLdSt
    rfl
  · have same := exec_otherST (fun x e => isLdSt ⟨x, e⟩) s v
    cases h : exec i s with
    | fault e => rwa [h] at same
    | refused r => rwa [h] at same
    | next t =>
      rw [h] at same
      cases i with
      | ldStVx x => exact absurd ⟨x, rfl⟩ isLdSt
      | _ => exact same

end Sys2Proof.Machine
end

section
/-! The invariant of the core, kept by every step and every transaction, and so met by every reachable state (R27, R62,
R65, R293). -/

namespace Sys2Proof.Machine

/-! ## Reading back a run of bytes -/

theorem Memory.read_writeBytes_inside {m : Memory} (wf : m.wf = true) {a k : Nat} {bs : List Byte} {b : Byte}
    (fits : a + bs.length ≤ memSize) (hk : bs[k]? = some b) : (m.writeBytes a bs).read (a + k) = b := by
  rw [Memory.read_writeBytes bs wf fits, if_pos (Nat.le_add_right a k), Nat.add_sub_cancel_left, hk, Option.getD_some]

theorem Memory.read_writeBytes_outside {m : Memory} (wf : m.wf = true) {a b : Nat} {bs : List Byte}
    (fits : a + bs.length ≤ memSize) (out : b < a ∨ a + bs.length ≤ b) : (m.writeBytes a bs).read b = m.read b := by
  rw [Memory.read_writeBytes bs wf fits]
  split
  case isFalse => rfl
  case isTrue above =>
    have past : bs.length ≤ b - a := by omega
    rw [List.getElem?_eq_none past, Option.getD_none]

/-! ## Memory under a store (R67) -/

/-- An instruction's store checks that it stays in the program region, so it keeps the canonical form and the reserved
region. -/
theorem mem_of_storeAtIndex {bs : List Byte} {w : Word} {s t : State} (nonempty : 0 < bs.length)
    (wf : s.mem.wf = true) (h : storeAtIndex params bs w s = .next t) :
    t.mem.wf = true ∧ ∀ a < progBase, t.mem.read a = s.mem.read a := by
  obtain ⟨passes, rfl⟩ := storeAtIndex_next h
  obtain ⟨low, high⟩ := (firstFault_writeFault_none nonempty).1 passes
  refine ⟨Memory.wf_storeBytes _ bs wf _, fun a ha => ?_⟩
  have plain : s.mem.storeBytes params.fontWritePolicy s.I.toNat bs = s.mem.writeBytes s.I.toNat bs :=
    Memory.storeBytes_fault bs s.mem _
  rw [plain, Memory.read_writeBytes_outside wf high (.inl (Nat.lt_of_lt_of_le ha low))]

theorem mem_of_exec {i : Instr} {s t : State} (wf : s.mem.wf = true) (h : exec i s = .next t) :
    t.mem.wf = true ∧ ∀ a < progBase, t.mem.read a = s.mem.read a := by
  by_cases stores : (∃ x, i = .ldBVx x) ∨ ∃ x, i = .ldMemVx x
  · obtain ⟨x, rfl⟩ | ⟨x, rfl⟩ := stores
    · exact mem_of_storeAtIndex (bs := bcdDigits (s.reg x)) (by simp) wf h
    · exact mem_of_storeAtIndex (bs := s.regsUpTo x) (by simp) wf h
  · have same : t.mem = s.mem := by
      rw [eq_withWrittenOf_of_exec h]
      exact mem_withWrittenOf (fun x e => stores (.inl ⟨x, e⟩)) fun x e => stores (.inr ⟨x, e⟩)
    exact ⟨same ▸ wf, fun a _ => by rw [same]⟩

/-! ## The depth of the call stack (R27, R28) -/

theorem depth_of_exec {i : Instr} {s t : State} (depth : s.stack.length ≤ stackDepth) (h : exec i s = .next t) :
    t.stack.length ≤ stackDepth := by
  by_cases isCall : ∃ nnn, i = .call nnn
  · obtain ⟨nnn, rfl⟩ := isCall
    obtain ⟨room, rfl⟩ := exec_call_next h
    exact room
  by_cases isRet : i = .ret
  · subst isRet
    obtain ⟨a, rest, hs, rfl⟩ := exec_ret_next h
    rw [hs] at depth
    exact (Nat.le_succ _).trans depth
  · rw [eq_withWrittenOf_of_exec h, stack_withWrittenOf (fun nnn e => isCall ⟨nnn, e⟩) isRet]
    exact depth

/-! ## The invariant -/

theorem exec_keeps_inv {i : Instr} {s t : State} (inv : s.Inv) (h : exec i s = .next t) : t.Inv := by
  obtain ⟨wf, reserved, depth⟩ := inv
  obtain ⟨wf', same⟩ := mem_of_exec wf h
  exact ⟨wf', fun a ha => (same a ha).trans (reserved a ha), depth_of_exec depth h⟩

theorem step_keeps_inv {s t : State} (inv : s.Inv) (h : step s = .next t) : t.Inv := by
  obtain ⟨e, -, he⟩ | ⟨i, -, hi⟩ := step_cases s
  · rw [he] at h; cases h
  · exact exec_keeps_inv inv (hi ▸ h)

theorem inv_reset : State.reset.Inv := ⟨rfl, fun a _ => Memory.read_nil a, Nat.zero_le _⟩

/-- The invariant speaks of memory and the call stack only. -/
theorem inv_of_same {s t : State} (inv : s.Inv) (mem : t.mem = s.mem) (stack : t.stack = s.stack) : t.Inv := by
  rwa [State.Inv, mem, stack]

theorem inv_of_loadProgram {bytes : List Byte} (s : State) (fits : bytes.length + progBase ≤ memSize) :
    State.Inv { resetCore s with mem := (resetCore s).mem.writeBytes progBase bytes } := by
  obtain ⟨wf, reserved, depth⟩ := inv_reset
  have high : progBase + bytes.length ≤ memSize := by omega
  exact ⟨Memory.wf_writeBytes bytes wf _,
    fun a ha => (Memory.read_writeBytes_outside wf high (.inl ha)).trans (reserved a ha), depth⟩

theorem transact_keeps_inv (t : Transaction) {s : State} (inv : s.Inv) : (transact t s).1.Inv := by
  cases t with
  | new => exact inv_of_same inv_reset rfl rfl
  | reset => exact inv_of_same inv_reset rfl rfl
  | loadProgram bytes =>
    obtain fits | tooLong := le_or_gt (bytes.length + progBase) memSize
    · rw [transact_loadProgram_of_next (loadProgram_of_fits s fits)]
      exact inv_of_loadProgram s fits
    · rwa [transact_loadProgram_of_fault (loadProgram_of_tooLong s tooLong)]
  | step =>
    obtain ⟨t, h⟩ | ⟨e, h, -⟩ := step_outcome s
    · rw [transact_step_of_next h]
      exact step_keeps_inv inv h
    · rwa [transact_step_of_fault h]
  | tickTimers => exact inv_of_same inv rfl rfl
  | keyDown k => exact inv_of_same inv rfl rfl
  | keyUp k => exact inv_of_same inv rfl rfl
  | displaySnapshot => exact inv
  | memoryView => exact inv

/-- Settles O41: no cell is listed and the stack is empty. -/
theorem resetMeetsTheInvariant : Obligations.ResetMeetsTheInvariant := inv_reset

/-- Settles O42: the stores check their addresses, CALL checks the depth, and no other instruction writes memory or
pushes. -/
theorem stepKeepsTheInvariant : Obligations.StepKeepsTheInvariant := fun _ _ => step_keeps_inv

/-- Settles O43: by induction over the transactions that reach the state, each of which keeps the invariant. -/
theorem reachableStatesMeetTheInvariant : Obligations.ReachableStatesMeetTheInvariant := by
  refine ⟨fun s reached => ?_, fun t s => transact_keeps_inv t⟩
  induction reached with
  | new => exact inv_reset
  | after t _ inv => exact transact_keeps_inv t inv

end Sys2Proof.Machine
end

section
/-! Stores and loads through I, and the words that a store or a host places where the next fetch reads them (R70, R76,
R195 to R197); the step at a fetchable and at an odd PC. -/

namespace Sys2Proof.Machine

/-! ## A store through I (R191, R195, R196) -/

/-- A store that stays in the program region writes its bytes and changes nothing but I and the PC beside. -/
theorem storeAtIndex_params_completes {bs : List Byte} {s : State} (w : Word) (nonempty : 0 < bs.length)
    (low : 0x200 ≤ s.I.toNat) (high : s.I.toNat + bs.length ≤ 0x1000) :
    storeAtIndex params bs w s = .next { s.advance with mem := s.mem.writeBytes s.I.toNat bs, I := w } := by
  have passes := (firstFault_writeFault_none nonempty).2 ⟨low, high⟩
  rw [storeAtIndex_eq_next (p := params) passes, ← Memory.storeBytes_fault]
  rfl

theorem storeAtIndex_params_low {bs : List Byte} {s : State} (w : Word) (nonempty : 0 < bs.length)
    (low : s.I.toNat < 0x200) : storeAtIndex params bs w s = .fault (.outOfBounds s.I.toNat) :=
  storeAtIndex_eq_fault (firstFault_writeFault_low nonempty low)

theorem storeAtIndex_params_high {bs : List Byte} {s : State} (w : Word) (nonempty : 0 < bs.length)
    (low : 0x200 ≤ s.I.toNat) (high : 0x1000 < s.I.toNat + bs.length) :
    storeAtIndex params bs w s = .fault (.outOfBounds (max s.I.toNat 0x1000)) :=
  storeAtIndex_eq_fault (firstFault_writeFault_high low nonempty high)

/-- A store leaves all but memory and the PC as it was. -/
theorem stored_frame (s : State) (m : Memory) :
    let t := { s.advance with mem := m, I := s.I }
    PCAdvanced s t ∧ KeepsRegs s t [] ∧ t.I = s.I ∧ t.disp = s.disp ∧ KeepsStackTimersKeys s t :=
  ⟨advance_PC_toNat s, fun _ _ => rfl, rfl, rfl, rfl, rfl, rfl, rfl⟩

/-- The three digits by name. -/
theorem bcdDigits_eq (v : Byte) :
    ∃ h t o, bcdDigits v = [h, t, o] ∧ h.toNat = v.toNat / 100 ∧ t.toNat = v.toNat / 10 % 10 ∧
      o.toNat = v.toNat % 10 := by
  have digits := bcdDigits_toNat v
  simp only [bcdDigits, List.map_cons, List.map_nil, List.cons.injEq, and_true] at digits
  exact ⟨_, _, _, rfl, digits⟩

/-- Settles O30: the three digits are the run stored at I; the two errors are those of the write check. -/
theorem ldBStoresTheDigits : Obligations.LdBStoresTheDigits := by
  intro x s wf
  obtain ⟨h, t, o, digits, hh, ht, ho⟩ := bcdDigits_eq (s.reg x)
  have exec_eq : exec (.ldBVx x) s = storeAtIndex params [h, t, o] s.I s := by rw [← digits]; rfl
  rw [exec_eq]
  refine ⟨fun low high => ?_, storeAtIndex_params_low s.I (Nat.succ_pos 2), fun low high => ?_⟩
  · have fits : s.I.toNat + [h, t, o].length ≤ memSize := Nat.succ_le_succ high
    refine ⟨_, storeAtIndex_params_completes s.I (Nat.succ_pos 2) low fits, ?_, ?_, ?_, fun a out => ?_,
      stored_frame s _⟩
    · exact (congrArg _ (Memory.read_writeBytes_inside (k := 0) wf fits rfl)).trans hh
    · exact (congrArg _ (Memory.read_writeBytes_inside (k := 1) wf fits rfl)).trans ht
    · exact (congrArg _ (Memory.read_writeBytes_inside (k := 2) wf fits rfl)).trans ho
    · exact Memory.read_writeBytes_outside wf fits out
  · exact storeAtIndex_params_high s.I (Nat.succ_pos 2) low (Nat.succ_le_succ high)

/-- Settles O31: V0 to Vx are the run stored at I; the two errors are those of the write check. -/
theorem ldMemStoresV0ToVx : Obligations.LdMemStoresV0ToVx := by
  intro x s wf
  have exec_eq : exec (.ldMemVx x) s = storeAtIndex params (s.regsUpTo x) s.I s := rfl
  have len : (s.regsUpTo x).length = x.val + 1 := length_regsUpTo s x
  have nonempty : 0 < (s.regsUpTo x).length := by omega
  rw [exec_eq]
  refine ⟨fun low high => ?_, storeAtIndex_params_low s.I nonempty, fun low high => ?_⟩
  · have fits : s.I.toNat + (s.regsUpTo x).length ≤ memSize := by rw [len, memSize]; omega
    refine ⟨_, storeAtIndex_params_completes s.I nonempty low fits, fun k hk => ?_, fun a out => ?_, stored_frame s _⟩
    · exact Memory.read_writeBytes_inside wf fits (getElem?_regsUpTo s x k hk)
    · exact Memory.read_writeBytes_outside wf fits (by omega)
  · exact storeAtIndex_params_high s.I nonempty low (by omega)

/-! ## The load through I (R197) -/

theorem reg_setRegsFrom_readBytes {s : State} {x k : Reg} (hk : k ≤ x) (m : Memory) (a : Nat) :
    (s.setRegsFrom 0 (m.readBytes a (x.val + 1))).reg k = m.read (a + k.val) := by
  have inside : k.val < x.val + 1 := Nat.lt_succ_of_le hk
  rw [State.reg_setRegsFrom, if_pos (Nat.zero_le _), Memory.getElem?_readBytes, Nat.sub_zero, if_pos inside,
    Option.getD_some]

theorem keepsRest_of_eq_withCoreOf {s t : State} (h : t = withCoreOf s t) :
    KeepsMemory s t ∧ t.I = s.I ∧ t.disp = s.disp ∧ KeepsStackTimersKeys s t := by
  rw [h]
  exact ⟨fun _ => rfl, rfl, rfl, rfl, rfl, rfl, rfl⟩

/-- Settles O32: the x + 1 bytes at I go to V0 on; the error is that of the read check. -/
theorem ldVxMemLoadsV0ToVx : Obligations.LdVxMemLoadsV0ToVx := by
  refine fun x s => ⟨fun inside => ?_, fun outside => ?_⟩
  · have passes : firstFault readFault s.I.toNat (x.val + 1) = none :=
      (firstFault_readFault_none (Nat.succ_pos _)).2 (by rw [memSize]; omega)
    refine ⟨_, ldVxMemWith_completes passes, fun k hk => ?_, fun k above => ?_, ?_⟩
    · exact reg_setRegsFrom_readBytes hk s.mem s.I.toNat
    · exact reg_setRegsFrom_above (Memory.length_readBytes _ _ _) above
    · have completes : exec (.ldVxMem x) s = .next _ := ldVxMemWith_completes passes
      exact ⟨pcAdvanced_of_ldVxMem completes, keepsRest_of_eq_withCoreOf (eq_withCoreOf_ldVxMem completes)⟩
  · exact ldVxMemWith_eq_fault (firstFault_readFault_some (Nat.succ_pos _) (by rw [memSize]; omega))

/-! ## The step at a fetchable and at an odd PC (R121, R123) -/

/-- Settles O7: the fetch and the decode answer i, and the step runs it. -/
theorem stepRunsTheDecodedInstruction : Obligations.StepRunsTheDecodedInstruction := fun _ _ => step_of_decode

/-- Settles O10: the fetch refuses an odd PC wherever it points. -/
theorem stepAtAnOddPCIsOutOfBounds : Obligations.StepAtAnOddPCIsOutOfBounds := fun _ odd =>
  step_of_fetch_error (fetch_of_odd odd)

/-! ## A word placed by the host (log entry 20) -/

theorem tableWord_toNat (w : Word) : tableWord 16 w.toNat = w := by
  rw [tableWord, Nat.mod_eq_of_lt w.isLt, BitVec.ofNat_toNat, BitVec.setWidth_eq]

/-- The state with the word `w` at `pc`, where the next step fetches. -/
def placedAt (s : State) (pc w : Word) : State :=
  { s with PC := pc, mem := s.mem.writeBytes pc.toNat [highByte w, lowByte w] }

/-- `withFetchWord` places the word at PC, or at PROG_BASE where no fetch accepts PC. -/
theorem withFetchWord_eq_placedAt (s : State) (w : Word) :
    ∃ pc, Fetchable pc ∧ (Fetchable s.PC → pc = s.PC) ∧ s.withFetchWord 16 w.toNat = placedAt s pc w := by
  rw [State.withFetchWord, tableWord_toNat]
  split
  case isTrue here =>
    obtain ⟨low, high, even⟩ := here
    exact ⟨s.PC, ⟨low, Nat.le_of_lt_succ high, even⟩, fun _ => rfl, rfl⟩
  case isFalse elsewhere =>
    refine ⟨0x200#16, by decide, fun pc => ?_, rfl⟩
    obtain ⟨low, high, even⟩ := pc
    exact absurd ⟨low, Nat.lt_succ_of_le high, even⟩ elsewhere

theorem wordAtPC_placedAt {s : State} (wf : s.mem.wf = true) {pc : Word} (hpc : Fetchable pc) (w : Word) :
    (placedAt s pc w).wordAtPC = w := by
  obtain ⟨-, high, -⟩ := hpc
  have fits : pc.toNat + [highByte w, lowByte w].length ≤ memSize := Nat.succ_le_succ high
  have first : (placedAt s pc w).mem.read pc.toNat = highByte w :=
    Memory.read_writeBytes_inside (k := 0) wf fits rfl
  have second : (placedAt s pc w).mem.read (pc.toNat + 1) = lowByte w :=
    Memory.read_writeBytes_inside (k := 1) wf fits rfl
  rw [State.wordAtPC, show (placedAt s pc w).PC = pc from rfl, first, second, wordOfBytes_high_low]

/-- Settles O12: the word is placed at a fetchable PC, from where it is read back. -/
theorem placedWordIsTheNextInstruction : Obligations.PlacedWordIsTheNextInstruction := by
  intro s w i wf decoded
  obtain ⟨pc, hpc, same, placed⟩ := withFetchWord_eq_placedAt s w
  rw [placed]
  refine ⟨step_of_decode hpc (by rwa [wordAtPC_placedAt wf hpc]), fun fetchable => ?_⟩
  obtain rfl := same fetchable
  obtain ⟨-, high, -⟩ := hpc
  refine ⟨rfl, fun a notFirst notSecond => ?_⟩
  refine Memory.read_writeBytes_outside wf (Nat.succ_le_succ high) ?_
  rw [List.length_cons, List.length_singleton]
  omega

/-! ## A word stored by the program itself (R76) -/

/-- Settles O13: V0 and V1 are the first two bytes of the run stored at I, which is where the PC advances to. -/
theorem storedWordIsFetchedNext : Obligations.StoredWordIsFetchedNext := by
  intro x s t wf two next h
  obtain ⟨passes, rfl⟩ := storeAtIndex_next h
  obtain ⟨-, fits⟩ := (firstFault_writeFault_none (by simp)).1 passes
  have pc : s.advance.PC = s.I := by
    apply BitVec.eq_of_toNat_eq
    rw [advance_PC_toNat, next, Nat.mod_eq_of_lt (next ▸ s.I.isLt)]
  have plain : s.mem.storeBytes params.fontWritePolicy s.I.toNat (s.regsUpTo x)
      = s.mem.writeBytes s.I.toNat (s.regsUpTo x) := Memory.storeBytes_fault _ s.mem _
  have first : (s.mem.writeBytes s.I.toNat (s.regsUpTo x)).read s.I.toNat = s.reg 0 :=
    Memory.read_writeBytes_inside wf fits (getElem?_regsUpTo s x 0 (Fin.zero_le x))
  have second : (s.mem.writeBytes s.I.toNat (s.regsUpTo x)).read (s.I.toNat + 1) = s.reg 1 :=
    Memory.read_writeBytes_inside wf fits (getElem?_regsUpTo s x 1 two)
  refine ⟨pc, ?_⟩
  rw [State.wordAtPC]
  simp only [pc, plain, first, second]

end Sys2Proof.Machine
end

section
/-! The jump through V0, a call with its return, the flag-writing arithmetic, RND and ADD I (R143, R145, R150, R169 to
R174, R193). -/

namespace Sys2Proof.Machine

/-! ## Control flow -/

/-- Settles O19: the jump goes to nnn + V0, too small for the 16-bit wrap. -/
theorem jpV0AddsV0 : Obligations.JpV0AddsV0 := fun nnn s =>
  ⟨s.jump (jumpV0Target s nnn), rfl, jumpV0Target_toNat s nnn, onlyRegs_jump s _⟩

/-- Settles O20: the return pops the entry that the call pushed. -/
theorem callThenReturnComesBack : Obligations.CallThenReturnComesBack := by
  intro nnn s t u call ret
  obtain ⟨-, rfl⟩ := exec_call_next call
  obtain ⟨a, rest, pushed, rfl⟩ := exec_ret_next ret
  obtain ⟨rfl, rfl⟩ := List.cons.inj pushed
  exact ⟨u16_add_toNat s.PC.toNat 2, rfl, fun _ _ => rfl, fun _ => rfl, rfl, rfl, rfl, rfl, rfl, rfl⟩

/-! ## A result and a flag (R161, R162) -/

theorem reg_VF_resultAndFlag (s : State) (x : Reg) (b : Byte) (f : Bool) :
    (s.resultAndFlag x b f).reg VF = flagByte f := by
  rw [State.reg_resultAndFlag, if_pos rfl]

/-- Vx holds the result unless it is VF, where the flag wins (D12). -/
theorem reg_resultAndFlag_of_ne {x : Reg} (h : x ≠ VF) (s : State) (b : Byte) (f : Bool) :
    (s.resultAndFlag x b f).reg x = b := by
  rw [State.reg_resultAndFlag, if_neg (Ne.symm h), if_pos rfl]

theorem toNat_flagByte (f : Bool) : (flagByte f).toNat = f.toNat := by cases f <;> rfl

/-- An instruction that writes the result `b` and the flag `decide p` completes, as the statements on 8xy4, 8xy5 and 8xy7
ask. -/
theorem resultAndFlag_completes {s : State} {i : Instr} {x : Reg} {b : Byte} {n : Nat} {p q : Prop} [Decidable p]
    (hi : exec i s = .next (s.resultAndFlag x b (decide p))) (hb : b.toNat = n) (hq : q → ¬ p) :
    ∃ t, exec i s = .next t ∧ (x ≠ VF → (t.reg x).toNat = n) ∧ (p → t.reg VF = 1#8) ∧ (q → t.reg VF = 0#8) ∧
      PCAdvanced s t ∧ OnlyRegs s t [x, VF] := by
  refine ⟨_, hi, fun h => by rw [reg_resultAndFlag_of_ne h, hb], fun yes => ?_, fun no => ?_,
    pcAdvanced_of_next_advance rfl rfl, onlyRegs_resultAndFlag s x b _⟩
  · rw [reg_VF_resultAndFlag, decide_eq_true yes]; rfl
  · rw [reg_VF_resultAndFlag, decide_eq_false (hq no)]; rfl

/-- The shifts: the flag is given as a number. -/
theorem shift_completes {s : State} {i : Instr} {x : Reg} {b : Byte} {f : Bool} {n k : Nat}
    (hi : exec i s = .next (s.resultAndFlag x b f)) (hb : b.toNat = n) (hf : f.toNat = k) :
    ∃ t, exec i s = .next t ∧ (x ≠ VF → (t.reg x).toNat = n) ∧ (t.reg VF).toNat = k ∧ PCAdvanced s t ∧
      OnlyRegs s t [x, VF] :=
  ⟨_, hi, fun h => by rw [reg_resultAndFlag_of_ne h, hb], by rw [reg_VF_resultAndFlag, toNat_flagByte, hf],
    pcAdvanced_of_next_advance rfl rfl, onlyRegs_resultAndFlag s x b f⟩

/-- Settles O23: the sum mod 256, and the carry as the flag. -/
theorem addRegSumAndCarry : Obligations.AddRegSumAndCarry := fun x y s =>
  resultAndFlag_completes rfl (u8_add_toNat (s.reg x) (s.reg y)) Nat.not_lt.2

/-- Settles O24: each difference mod 256, and no borrow as the flag. -/
theorem subtractionsAndNoBorrow : Obligations.SubtractionsAndNoBorrow := fun x y s =>
  ⟨resultAndFlag_completes rfl (u8_sub_toNat (s.reg x) (s.reg y)) Nat.not_le.2,
    resultAndFlag_completes rfl (u8_sub_toNat (s.reg y) (s.reg x)) Nat.not_le.2⟩

theorem toNat_lowBit (b : Byte) : (lowBit b).toNat = b.toNat % 2 := by
  rw [lowBit, BitVec.getLsbD, Nat.toNat_testBit, pow_zero, Nat.div_one]

theorem toNat_highBit (b : Byte) : (highBit b).toNat = b.toNat / 128 := by
  have top : b.toNat / 128 < 2 := Nat.div_lt_of_lt_mul b.isLt
  rw [highBit, BitVec.getLsbD, Nat.toNat_testBit]
  exact Nat.mod_eq_of_lt top

theorem toNat_shiftRight_one (b : Byte) : (b >>> 1).toNat = b.toNat / 2 := by
  rw [BitVec.toNat_ushiftRight, Nat.shiftRight_one]

theorem toNat_shiftLeft_one (b : Byte) : (b <<< 1).toNat = 2 * b.toNat % 256 := by
  rw [BitVec.toNat_shiftLeft, Nat.shiftLeft_eq, pow_one, Nat.mul_comm]

/-- Settles O25: each shift by one, and the bit that leaves the byte as the flag. -/
theorem shiftsAndTheBitShiftedOut : Obligations.ShiftsAndTheBitShiftedOut := fun x s =>
  ⟨shift_completes rfl (toNat_shiftRight_one (s.reg x)) (toNat_lowBit (s.reg x)),
    shift_completes rfl (toNat_shiftLeft_one (s.reg x)) (toNat_highBit (s.reg x))⟩

/-! ## RND (R174) and ADD I (R193) -/

theorem rndWith_reg (r : Byte) (x : Reg) (kk : Byte) (s : State) :
    ((s.nextDraw.setReg x (r &&& kk)).advance).reg x = r &&& kk := by
  rw [State.reg_advance, State.reg_setReg, if_pos rfl]

/-- Settles O26: RND loads r & kk into Vx of the state whose draw is consumed; the machine's own r is the free byte of that
draw. -/
theorem rndMasksTheRandomByte : Obligations.RndMasksTheRandomByte := by
  have frame (r : Byte) (x : Reg) (kk : Byte) (s : State) : OnlyRegs s (s.nextDraw.setReg x (r &&& kk)).advance [x] :=
    onlyRegs_setReg_advance s.nextDraw x _
  refine ⟨fun r x kk s => ?_, fun x kk s => ?_⟩
  · refine ⟨_, rfl, fun b _ => ?_, advance_PC_toNat s, frame r x kk s⟩
    rw [rndWith_reg, BitVec.getLsbD_and]
  · refine ⟨_, rfl, fun b _ => ?_, rfl, advance_PC_toNat s, frame _ x kk s⟩
    rw [rndWith_reg, BitVec.getLsbD_and]

/-- Settles O28: at the default FX1E_SETS_VF the one update beside the PC is that of I. -/
theorem addIVxAddsWithoutFlag : Obligations.AddIVxAddsWithoutFlag := fun x s =>
  setI_completes rfl (u16_add_toNat s.I.toNat (s.reg x).toNat)

end Sys2Proof.Machine
end

section
/-! The keypad: the skips on a key's level and the key wait (R231 to R234). -/

namespace Sys2Proof.Machine

/-- Settles O36: a Vx of at most 15 names the key of that number, and one above names none. -/
theorem keySkipsReadTheKeyLevel : Obligations.KeySkipsReadTheKeyLevel := by
  refine fun x s => ⟨fun k hk => ?_, fun large => ⟨keySkip_of_ge true large, keySkip_of_ge false large⟩⟩
  have nibble : (s.reg x).toNat < 16 := hk ▸ k.isLt
  have named : (⟨(s.reg x).toNat, nibble⟩ : Key) = k := Fin.ext hk
  have skips (wanted : Bool) : keySkipWith params wanted x s = .next (s.skipIf (s.key k == wanted)) := by
    rw [keySkip_of_lt wanted nibble, named]
  exact ⟨skip_completes (skips true) beq_iff_eq, skip_completes (skips false) beq_iff_eq⟩

theorem toNat_keyByte (k : Key) : (BitVec.ofNat 8 k.val).toNat = k.val := by
  rw [BitVec.toNat_ofNat]
  exact Nat.mod_eq_of_lt (by omega)

/-- Settles O37: the lowest pressed key is the head of the pressed ones, and its number is loaded into Vx. -/
theorem keyWaitTakesTheLowestKey : Obligations.KeyWaitTakesTheLowestKey := by
  refine fun x s => ⟨fun k pressed lower => ?_, exec_ldVxK_of_released x⟩
  obtain ⟨rest, hk⟩ := pressed_head pressed lower
  exact loadReg_completes (exec_ldVxK_of_pressed x hk) fun t ht => by rw [ht, toNat_keyByte]

end Sys2Proof.Machine
end

section
/-! The draw: DRW on the machine's memory, and the same sprite drawn twice (R211 to R217). -/

namespace Sys2Proof.Machine

/-! ## Which pixels a sprite in memory covers -/

theorem wrapRow_add_mod_eq_iff {y r : Nat} {row : Fin 32} :
    wrapRow (y % dispHeight + r) = row ↔ (y + r) % 32 = row.val := by
  rw [Fin.ext_iff]
  simp [wrapRow, Fin.ofNat]

theorem wrapCol_add_mod_eq_iff {x c : Nat} {col : Fin 64} :
    wrapCol (x % dispWidth + c) = col ↔ (x + c) % 64 = col.val := by
  rw [Fin.ext_iff]
  simp [wrapCol, Fin.ofNat]

theorem getD_readBytes (m : Memory) (a : Nat) {n r : Nat} (hr : r < n) :
    (m.readBytes a n).getD r 0 = m.read (a + r) := by
  rw [List.getD_eq_getElem?_getD, Memory.getElem?_readBytes, if_pos hr, Option.getD_some]

/-- At the default bit order a sprite read from memory covers the pixels that DRW's statement names. -/
theorem spriteCovers_readBytes_iff (x y : Nat) (m : Memory) (a n : Nat) (row : Fin 32) (col : Fin 64) :
    spriteCovers .msbLeft x y (m.readBytes a n) row col = true ↔
      ∃ r < n, ∃ c < 8, (m.read (a + r)).getLsbD (7 - c) = true ∧ (y + r) % 32 = row.val ∧ (x + c) % 64 = col.val := by
  rw [spriteCovers_iff, Memory.length_readBytes]
  refine exists_congr fun r => and_congr_right fun hr => exists_congr fun c => and_congr_right fun _ => ?_
  rw [getD_readBytes m a hr, wrapRow_add_mod_eq_iff, wrapCol_add_mod_eq_iff, spriteBit]

/-! ## What a draw does to the display -/

section
variable {order : SpriteBitOrder} {x y : Nat} {sprite : List Byte}

/-- A draw collides exactly when it turns a pixel off (R214). -/
theorem drawSprite_collision_iff_turnsOff (h : sprite.length ≤ 32) (d : Display) :
    (drawSprite order x y sprite d).2 = true ↔
      ∃ row col, d.pixel row col = true ∧ (drawSprite order x y sprite d).1.pixel row col = false := by
  rw [drawSprite_collision order x y sprite d h]
  refine exists_congr fun row => exists_congr fun col => ?_
  rw [drawSprite_pixel order x y sprite d h, and_comm]
  refine and_congr_right fun on => ?_
  rw [on, Bool.true_xor, Bool.not_eq_false']

/-- Each pixel is inverted twice or not at all. -/
theorem drawSprite_drawSprite (h : sprite.length ≤ 32) (d : Display) :
    (drawSprite order x y sprite (drawSprite order x y sprite d).1).1 = d := by
  refine Display.ext_pixel fun row col => ?_
  rw [drawSprite_pixel order x y sprite _ h, drawSprite_pixel order x y sprite d h, Bool.xor_assoc, Bool.xor_self,
    Bool.xor_false]

theorem drawSprite_clear_collision (h : sprite.length ≤ 32) :
    (drawSprite order x y sprite Display.clear).2 = false := by
  rw [Bool.eq_false_iff, Ne, drawSprite_collision order x y sprite _ h]
  rintro ⟨row, col, -, on⟩
  rw [Display.pixel_clear] at on
  cases on

/-- Under both orders the eight pixels of a byte are its eight bits. -/
theorem exists_spriteBit_of_ne_zero (order : SpriteBitOrder) {b : Byte} (hb : b ≠ 0#8) :
    ∃ c < 8, spriteBit order b c = true := by
  by_contra allZero
  refine hb (BitVec.eq_of_getLsbD_eq fun i hi => ?_)
  rw [BitVec.getLsbD_zero, Bool.eq_false_iff]
  intro bit
  cases order with
  | msbLeft =>
    have place : 7 - (7 - i) = i := by omega
    exact allZero ⟨7 - i, by omega, by rwa [spriteBit, place]⟩
  | lsbLeft => exact allZero ⟨i, hi, bit⟩

theorem exists_spriteCovers (hb : ∃ b ∈ sprite, b ≠ 0#8) :
    ∃ row col, spriteCovers order x y sprite row col = true := by
  obtain ⟨b, mem, hb⟩ := hb
  obtain ⟨r, hr, rfl⟩ := List.getElem_of_mem mem
  obtain ⟨c, hc, bit⟩ := exists_spriteBit_of_ne_zero order hb
  refine ⟨_, _, (spriteCovers_iff ..).2 ⟨r, hr, c, hc, ?_, rfl, rfl⟩⟩
  rwa [List.getD_eq_getElem sprite 0 hr]

/-- After a draw on a clear display the covered pixels are on, so drawing again meets them. -/
theorem drawSprite_again_collision (h : sprite.length ≤ 32) (hb : ∃ b ∈ sprite, b ≠ 0#8) :
    (drawSprite order x y sprite (drawSprite order x y sprite Display.clear).1).2 = true := by
  obtain ⟨row, col, covers⟩ := exists_spriteCovers (order := order) (x := x) (y := y) hb
  refine (drawSprite_collision order x y sprite _ h).2 ⟨row, col, covers, ?_⟩
  rw [drawSprite_pixel order x y sprite _ h, covers, Display.pixel_clear, Bool.xor_true, Bool.not_false]

end

/-- Settles O35: a pixel inverted twice is as it was, and the second draw meets what the first one turned on. -/
theorem drawingTwiceRestoresTheDisplay : Obligations.DrawingTwiceRestoresTheDisplay := by
  intro order x y sprite d short
  have h : sprite.length ≤ 32 := short.trans (by decide)
  refine ⟨drawSprite_drawSprite h d, ?_⟩
  rintro rfl
  exact ⟨drawSprite_clear_collision h, drawSprite_again_collision h⟩

/-! ## DRW (R217) -/

theorem length_sprite_le (m : Memory) (a : Nat) (n : Nibble) : (m.readBytes a n.toNat).length ≤ 32 := by
  have := n.isLt
  rw [Memory.length_readBytes]
  omega

theorem drw_frame (s : State) (d : Display) (f : Bool) :
    let t := ({ s with disp := d }.setFlag f).advance
    PCAdvanced s t ∧ KeepsRegs s t [VF] ∧ KeepsMemory s t ∧ t.I = s.I ∧ KeepsStackTimersKeys s t :=
  ⟨advance_PC_toNat s, keepsRegs_setFlag { s with disp := d } f, fun _ => rfl, rfl, rfl, rfl, rfl, rfl⟩

theorem reg_VF_setFlag_advance (s : State) (f : Bool) : (s.setFlag f).advance.reg VF = flagByte f := by
  rw [State.reg_advance, State.reg_setFlag, if_pos rfl]

/-- Settles O34: DRW draws the n bytes at I; the draw engine's covered pixels and collision are those of the statement. -/
theorem drwInvertsTheSpritesPixels : Obligations.DrwInvertsTheSpritesPixels := by
  intro x y n s height
  have positive : 0 < n.toNat := Nat.pos_of_ne_zero fun e => height (BitVec.eq_of_toNat_eq e)
  refine ⟨fun inside => ?_, fun outside => drwWith_eq_fault (firstFault_readFault_some positive outside)⟩
  have passes := (firstFault_readFault_none positive).2 inside
  have short := length_sprite_le s.mem s.I.toNat n
  have covers := spriteCovers_readBytes_iff (s.reg x).toNat (s.reg y).toNat s.mem s.I.toNat n.toNat
  have pixel := drawSprite_pixel .msbLeft (s.reg x).toNat (s.reg y).toNat _ s.disp short
  have turnsOff := drawSprite_collision_iff_turnsOff (order := .msbLeft) (x := (s.reg x).toNat)
    (y := (s.reg y).toNat) short s.disp
  refine ⟨_, drwWith_completes passes, fun row col => ⟨fun on => ?_, fun off => ?_⟩, fun hit => ?_, fun miss => ?_,
    drw_frame s _ _⟩
  · exact (pixel row col).trans (by rw [(covers row col).2 on, Bool.xor_true])
  · exact (pixel row col).trans (by rw [Bool.eq_false_iff.2 (mt (covers row col).1 off), Bool.xor_false])
  · exact (reg_VF_setFlag_advance _ _).trans (congrArg flagByte (turnsOff.2 hit))
  · exact (reg_VF_setFlag_advance _ _).trans (congrArg flagByte (Bool.eq_false_iff.2 (mt turnsOff.1 miss)))

end Sys2Proof.Machine
end

section
/-! Construction, reset and load, at the defaults and for given parameters (R291 to R295, R6). -/

namespace Sys2Proof.Machine

/-! ## The construction state (R291) -/

/-- The reserved region of a memory that holds its construction contents there. -/
theorem holdsFontAndFill_of_read {p : Params} {s : State} (fits : p.fontFits)
    (h : ∀ a < progBase, s.mem.read a = constructedByte p a) : HoldsFontAndFill p s := by
  have below : p.fontBase + 80 ≤ progBase := fits
  refine ⟨fun d b => ?_, fun a ha outside => ?_⟩
  · rw [h _ (by omega), constructedByte_font]
  · rw [h a ha, constructedByte_fill ha outside]

/-- Above memory an address reads as at the defaults, which is 0 too. -/
theorem read_constructedMemory_program {p : Params} (fits : p.fontFits) {a : Nat} (ha : progBase ≤ a) :
    (constructedMemory p).read a = 0#8 := by
  rw [constructedMemory, read_constructedFrom]
  split
  · exact constructedByte_program fits ha
  · exact constructedByte_program params_fontFits ha

theorem holdsFontAndFill_newWith {p : Params} (fits : p.fontFits) : HoldsFontAndFill p (newWith p) :=
  holdsFontAndFill_of_read fits fun _ ha => read_constructedMemory p (ha.trans (by decide))

theorem newWith_params : newWith params = State.reset := by
  rw [newWith, constructedMemory_params]
  rfl

/-- Settles O40: memory lists no cell, so each byte is the constructed one; every other element is a literal. -/
theorem resetIsTheConstructionState : Obligations.ResetIsTheConstructionState := by
  have regs (x : Reg) : State.reset.reg x = 0#8 := Vector.getElem_replicate x.isLt
  have released (k : Key) : State.reset.key k = false := Vector.getElem_replicate k.isLt
  obtain ⟨font, fill⟩ : HoldsFontAndFill params State.reset :=
    newWith_params ▸ holdsFontAndFill_newWith params_fontFits
  exact ⟨regs, rfl, rfl, rfl, rfl, rfl, Display.pixel_clear, released, font, fill,
    fun _ => constructedByte_program params_fontFits⟩

/-! ## Reset (R292) -/

/-- Settles O55: reset() is the construction state but for the keypad and the count of draws. -/
theorem resetKeepsOnlyTheKeypad : Obligations.ResetKeepsOnlyTheKeypad := fun _ =>
  ⟨rfl, rfl, fun _ => rfl, rfl, rfl, rfl, rfl, rfl, rfl, rfl⟩

/-! ## Load (R294, R295) -/

/-- An image of at most 3584 bytes lies in memory from 0x200 on. -/
theorem image_fits {bytes : List Byte} (short : bytes.length ≤ 3584) : progBase + bytes.length ≤ memSize :=
  Nat.add_le_add_left short progBase

/-- Settles O57: the length check, then the image's run of bytes over the memory of the reset state. -/
theorem loadResetsThenCopies : Obligations.LoadResetsThenCopies := by
  refine fun bytes s => ⟨fun long => ?_, fun e => transact_loadProgram_of_fault, fun short => ?_⟩
  · exact loadProgram_of_tooLong s (Nat.add_lt_add_right long progBase)
  · have fits := image_fits short
    refine ⟨_, loadProgram_of_fits s (Nat.add_comm _ _ ▸ fits), fun k hk => ?_, fun a outside => ?_, rfl, ?_⟩
    · exact Memory.read_writeBytes_inside rfl fits (List.getElem?_eq_getElem hk)
    · exact Memory.read_writeBytes_outside rfl fits outside
    · rintro rfl; rfl

/-! ## The defaults (R6) -/

theorem execWith_params (i : Instr) (s : State) : execWith params (Config.randomByte s.draws) i s = exec i s := by
  cases i <;> rfl

theorem stepWith_params (s : State) : stepWith params (Config.randomByte s.draws) s = step s := by
  obtain ⟨e, failed, h⟩ | ⟨i, ok, h⟩ := step_cases s
  · rw [h, stepWith_of_error failed]
  · rw [h, stepWith_of_ok ok, execWith_params]

theorem resetWith_params (s : State) : resetWith params s = resetCore s := by
  rw [resetWith, newWith_params, resetCore]

theorem loadProgramWith_params (bytes : List Byte) (s : State) :
    loadProgramWith params bytes s = loadProgram bytes s := by
  rw [loadProgramWith, resetWith_params, loadProgram]

theorem transactWith_params (t : Transaction) (s : State) :
    transactWith params (Config.randomByte s.draws) t s = transact t s := by
  cases t with
  | new => rw [transactWith, newWith_params]; rfl
  | reset => rw [transactWith, resetWith_params]; rfl
  | loadProgram bytes => rw [transactWith, loadProgramWith_params]; rfl
  | step => rw [transactWith, stepWith_params]; rfl
  | _ => rfl

/-- Settles O59: construction lists no cell at the defaults, and every other operation with parameters unfolds to the
machine's own. -/
theorem defaultsGiveTheMachine : Obligations.DefaultsGiveTheMachine :=
  ⟨fun s => (stepWith_params s).symm, newWith_params, resetWith_params, loadProgramWith_params, transactWith_params⟩

end Sys2Proof.Machine
end

section
/-! The parameters of R6 at their other settings, one setting after the other. -/

namespace Sys2Proof.Machine

/-! ## FONT_BASE, FONT_TABLE and RESERVED_FILL (D2, D3, D4) -/

theorem loadProgramWith_of_fits (p : Params) {bytes : List Byte} (s : State)
    (fits : progBase + bytes.length ≤ memSize) :
    loadProgramWith p bytes s
      = .next { resetWith p s with mem := (constructedMemory p).writeBytes progBase bytes } :=
  if_neg (by omega)

/-- A load leaves the font and the fill below the image and 0x00 above it. -/
theorem loaded_memory {p : Params} (fontFits : p.fontFits) {bytes : List Byte} {t : State}
    (fits : progBase + bytes.length ≤ memSize) (mem : t.mem = (constructedMemory p).writeBytes progBase bytes) :
    HoldsFontAndFill p t ∧ ClearFrom (progBase + bytes.length) t ∧
      ∀ (k : Nat) (h : k < bytes.length), t.mem.read (progBase + k) = bytes[k] := by
  have wf := wf_constructedMemory p
  refine ⟨holdsFontAndFill_of_read fontFits fun a ha => ?_, fun a ha => ?_, fun k hk => ?_⟩ <;> rw [mem]
  · rw [Memory.read_writeBytes_outside wf fits (.inl ha), read_constructedMemory p (ha.trans (by decide))]
  · rw [Memory.read_writeBytes_outside wf fits (.inr ha),
      read_constructedMemory_program fontFits ((Nat.le_add_right _ _).trans ha)]
  · exact Memory.read_writeBytes_inside wf fits (List.getElem?_eq_getElem hk)

/-! ## FONT_WRITE_POLICY = ignore (D5) -/

section
variable {p : Params} {bs : List Byte} {w : Word} {s : State}

theorem firstFault_writeFault_ignore (base n : Nat) :
    firstFault (writeFault .ignore) base n = firstFault readFault base n := by
  rw [show writeFault .ignore = readFault from funext writeFault_ignore]

theorem storeAtIndex_ignore_completes (ignore : p.fontWritePolicy = .ignore) (nonempty : 0 < bs.length)
    (high : s.I.toNat + bs.length ≤ memSize) :
    storeAtIndex p bs w s = .next { s.advance with mem := s.mem.storeBytes .ignore s.I.toNat bs, I := w } := by
  have passes : firstFault (writeFault p.fontWritePolicy) s.I.toNat bs.length = none := by
    rw [ignore, firstFault_writeFault_ignore]
    exact (firstFault_readFault_none nonempty).2 high
  rw [storeAtIndex_eq_next passes, ignore]

theorem storeAtIndex_ignore_high (ignore : p.fontWritePolicy = .ignore) (nonempty : 0 < bs.length)
    (high : memSize < s.I.toNat + bs.length) :
    storeAtIndex p bs w s = .fault (.outOfBounds (max s.I.toNat 0x1000)) := by
  refine storeAtIndex_eq_fault ?_
  rw [ignore, firstFault_writeFault_ignore]
  exact firstFault_readFault_some nonempty high

end

section
variable {m : Memory} {a : Nat} {bs : List Byte}

theorem Memory.read_storeBytes_ignore_reserved (wf : m.wf = true) (fits : a + bs.length ≤ memSize) {b : Nat}
    (hb : b < 0x200) : (m.storeBytes .ignore a bs).read b = m.read b := by
  rw [Memory.read_storeBytes_ignore bs wf fits, if_neg (by rw [progBase]; omega)]

theorem Memory.read_storeBytes_ignore_outside (wf : m.wf = true) (fits : a + bs.length ≤ memSize) {b : Nat}
    (out : b < a ∨ a + bs.length ≤ b) : (m.storeBytes .ignore a bs).read b = m.read b := by
  rw [Memory.read_storeBytes_ignore bs wf fits]
  split
  case isFalse => rfl
  case isTrue inside =>
    have past : bs.length ≤ b - a := by omega
    rw [List.getElem?_eq_none past, Option.getD_none]

theorem Memory.read_storeBytes_ignore_inside (wf : m.wf = true) (fits : a + bs.length ≤ memSize) {k : Nat} {b : Byte}
    (low : 0x200 ≤ a + k) (hk : bs[k]? = some b) : (m.storeBytes .ignore a bs).read (a + k) = b := by
  rw [Memory.read_storeBytes_ignore bs wf fits, if_pos ⟨low, Nat.le_add_right a k⟩, Nat.add_sub_cancel_left, hk,
    Option.getD_some]

end

/-- Fx55 under ignore, as O60 states it. -/
theorem ldMemVxWith_ignore {p : Params} (x : Reg) {s : State} (ignore : p.fontWritePolicy = .ignore)
    (wf : s.mem.wf = true) :
    (s.I.toNat + x.val ≤ 0xFFF →
      ∃ t, ldMemVxWith p x s = .next t ∧ (∀ a < 0x200, t.mem.read a = s.mem.read a) ∧
        (∀ a, a < s.I.toNat ∨ s.I.toNat + x.val < a → t.mem.read a = s.mem.read a) ∧
        (∀ k : Reg, k ≤ x → 0x200 ≤ s.I.toNat + k.val → t.mem.read (s.I.toNat + k.val) = s.reg k) ∧ PCAdvanced s t) ∧
    (0xFFF < s.I.toNat + x.val → ldMemVxWith p x s = .fault (.outOfBounds (max s.I.toNat 0x1000))) := by
  have len : (s.regsUpTo x).length = x.val + 1 := length_regsUpTo s x
  have nonempty : 0 < (s.regsUpTo x).length := by omega
  refine ⟨fun inside => ?_, fun outside => ?_⟩
  · have fits : s.I.toNat + (s.regsUpTo x).length ≤ memSize := by rw [len, memSize]; omega
    refine ⟨_, storeAtIndex_ignore_completes ignore nonempty fits, fun a ha => ?_, fun a out => ?_,
      fun k hk low => ?_, advance_PC_toNat s⟩
    · exact Memory.read_storeBytes_ignore_reserved wf fits ha
    · exact Memory.read_storeBytes_ignore_outside wf fits (by rw [len]; omega)
    · exact Memory.read_storeBytes_ignore_inside wf fits low (getElem?_regsUpTo s x k hk)
  · exact storeAtIndex_ignore_high ignore nonempty (by rw [len, memSize]; omega)

/-- Fx33 under ignore, as O60 states it. -/
theorem ldBVxWith_ignore {p : Params} (x : Reg) {s : State} (ignore : p.fontWritePolicy = .ignore)
    (wf : s.mem.wf = true) :
    (s.I.toNat + 2 ≤ 0xFFF →
      ∃ t, ldBVxWith p x s = .next t ∧ (∀ a < 0x200, t.mem.read a = s.mem.read a) ∧
        (∀ a, a < s.I.toNat ∨ s.I.toNat + 2 < a → t.mem.read a = s.mem.read a) ∧
        (0x200 ≤ s.I.toNat → (t.mem.read s.I.toNat).toNat = (s.reg x).toNat / 100) ∧
        (0x200 ≤ s.I.toNat + 1 → (t.mem.read (s.I.toNat + 1)).toNat = (s.reg x).toNat / 10 % 10) ∧
        (0x200 ≤ s.I.toNat + 2 → (t.mem.read (s.I.toNat + 2)).toNat = (s.reg x).toNat % 10) ∧ PCAdvanced s t) ∧
    (0xFFF < s.I.toNat + 2 → ldBVxWith p x s = .fault (.outOfBounds (max s.I.toNat 0x1000))) := by
  obtain ⟨h, t, o, digits, hh, ht, ho⟩ := bcdDigits_eq (s.reg x)
  rw [ldBVxWith, digits]
  refine ⟨fun inside => ?_, fun outside => ?_⟩
  · have fits : s.I.toNat + [h, t, o].length ≤ memSize := Nat.succ_le_succ inside
    refine ⟨_, storeAtIndex_ignore_completes ignore (Nat.succ_pos 2) fits, fun a ha => ?_, fun a out => ?_,
      fun low => ?_, fun low => ?_, fun low => ?_, advance_PC_toNat s⟩
    · exact Memory.read_storeBytes_ignore_reserved wf fits ha
    · exact Memory.read_storeBytes_ignore_outside wf fits out
    · exact (congrArg _ (Memory.read_storeBytes_ignore_inside (k := 0) wf fits low rfl)).trans hh
    · exact (congrArg _ (Memory.read_storeBytes_ignore_inside (k := 1) wf fits low rfl)).trans ht
    · exact (congrArg _ (Memory.read_storeBytes_ignore_inside (k := 2) wf fits low rfl)).trans ho
  · exact storeAtIndex_ignore_high ignore (Nat.succ_pos 2) (Nat.succ_le_succ outside)

/-! ## DXY0_POLICY = noop_vf0 and SPRITE_BIT_ORDER (D10, D11) -/

/-- A draw of height 0 reads no byte and draws none. -/
theorem drwWith_height0 (p : Params) (x y : Reg) (s : State) :
    drwWith p x y 0#4 s = .next (s.setFlag false).advance :=
  drwWith_completes (firstFault_eq_none.2 fun _ below => absurd below (Nat.not_lt_zero _))

theorem spriteBit_lsbLeft (b : Byte) {c : Nat} (hc : c < 8) : spriteBit .lsbLeft b c = spriteBit .msbLeft b (7 - c) := by
  have mirrored : 7 - (7 - c) = c := by omega
  rw [spriteBit, spriteBit, mirrored]

/-! ## LDST_INCREMENTS_I and FX1E_SETS_VF (D13, D14) -/

theorem I_of_ldst {p : Params} {x : Reg} {s t : State}
    (h : ldMemVxWith p x s = .next t ∨ ldVxMemWith p x s = .next t) : t.I = indexAfter p x s := by
  obtain h | h := h
  · obtain ⟨-, rfl⟩ := storeAtIndex_next h; rfl
  · obtain ⟨-, rfl⟩ := ldVxMemWith_next h; rfl

theorem indexAfter_of_true {p : Params} (h : p.ldstIncrementsI = true) (x : Reg) (s : State) :
    (indexAfter p x s).toNat = (s.I.toNat + x.val + 1) % 65536 := by
  rw [indexAfter, if_pos h]
  exact u16_add_toNat (s.I.toNat + x.val) 1

theorem indexAfter_of_false {p : Params} (h : p.ldstIncrementsI = false) (x : Reg) (s : State) :
    indexAfter p x s = s.I :=
  if_neg (by simp [h])

theorem addIVxWith_setsVf {p : Params} (h : p.fx1eSetsVf = true) (x : Reg) (s : State) :
    addIVxWith p x s = .next ((s.setReg VF (Config.fx1eFlag s.I (s.reg x))).setI
      (u16 (s.I.toNat + (s.reg x).toNat))).advance := by
  rw [addIVxWith, if_pos h]

/-! ## KEY_WAIT_SELECT and KEY_INDEX_POLICY (D15, D16) -/

theorem afterKeyDraw_PC (p : Params) (s : State) : (afterKeyDraw p s).PC = s.PC := by
  unfold afterKeyDraw
  split <;> rfl

/-- With some key pressed Fx0A takes a pressed one, whichever policy selects it. -/
theorem ldVxKWith_of_pressed (p : Params) (x : Reg) {s : State} (h : ∃ k, s.key k = true) :
    ∃ t k, ldVxKWith p x s = .next t ∧ s.key k = true ∧ (t.reg x).toNat = k.val ∧ PCAdvanced s t := by
  obtain ⟨j, pressed⟩ := h
  cases selected : selectKey p.keyWaitSelect (Config.keyDraw s.draws) s.pressed with
  | none => exact absurd (selectKey_eq_none.1 selected) (List.ne_nil_of_mem (mem_pressed.2 pressed))
  | some k =>
    refine ⟨((afterKeyDraw p s).setReg x (BitVec.ofNat 8 k.val)).advance, k, by rw [ldVxKWith, selected],
      mem_pressed.1 (selectKey_mem selected), ?_, pcAdvanced_of_next_advance rfl (afterKeyDraw_PC p s)⟩
    rw [State.reg_advance, State.reg_setReg, if_pos rfl, toNat_keyByte]

theorem keySkip_lowNibble {p : Params} (h : p.keyIndexPolicy = .lowNibble) (wanted : Bool) (x : Reg) (s : State) :
    ∃ t, keySkipWith p wanted x s = .next t ∧ PCSkipped s t (s.key (Fin.ofNat 16 (s.reg x).toNat) = wanted) := by
  refine ⟨s.skipIf (s.key (Fin.ofNat 16 (s.reg x).toNat) == wanted), ?_, pcSkipped_of_next_skipIf beq_iff_eq rfl⟩
  simp only [keySkipWith, h, keyOperand]

/-! ## All settings -/

/-- Settles O60: one lemma for each parameter. -/
theorem parametersSelectTheirSettings : Obligations.ParametersSelectTheirSettings := by
  refine fun p x y s => ⟨fun fits => ?font, fun ignore wf => ?ignore, fun off low high => ?align,
    fun w => decodeWith_noopVf0_of_familyD, ⟨_, drwWith_height0 p x y s, rfl, reg_VF_setFlag_advance s false,
      advance_PC_toNat s⟩, fun b c => spriteBit_lsbLeft b, fun t h => ⟨fun on => ?incremented, fun off => ?kept⟩,
    fun sets => ?flag, fun _ => ldVxKWith_of_pressed p x, fun low =>
      ⟨keySkip_lowNibble low true x s, keySkip_lowNibble low false x s⟩⟩
  case font =>
    refine ⟨holdsFontAndFill_newWith fits, fun a => read_constructedMemory_program fits, rfl, rfl,
      fun bytes short => ?_, setI_completes rfl (glyphAddr_toNat fits (s.reg x))⟩
    have imageFits := image_fits short
    obtain ⟨font, clear, image⟩ := loaded_memory fits imageFits
      (t := { resetWith p s with mem := (constructedMemory p).writeBytes progBase bytes }) rfl
    exact ⟨_, loadProgramWith_of_fits p s imageFits, font, clear, image, rfl⟩
  case ignore =>
    obtain ⟨stores, storesHigh⟩ := ldMemVxWith_ignore x ignore wf
    exact ⟨stores, storesHigh, ldBVxWith_ignore x ignore wf⟩
  case align =>
    rw [off]
    exact fetch_unaligned_of_inside low high
  case incremented => rw [I_of_ldst h, indexAfter_of_true on]
  case kept => rw [I_of_ldst h, indexAfter_of_false off]
  case flag =>
    refine ⟨_, addIVxWith_setsVf sets x s, u16_add_toNat s.I.toNat (s.reg x).toNat, ?_, advance_PC_toNat s,
      fun y hy => ?_, fun _ => rfl, rfl, rfl, rfl, rfl, rfl⟩
    · rw [State.reg_advance, State.reg_setI, State.reg_setReg, if_pos rfl]
    · rw [State.reg_advance, State.reg_setI, State.reg_setReg, if_neg fun e => hy (List.mem_singleton.2 e.symm)]

end Sys2Proof.Machine
end
